-- ==== Sys2Proof/Word.lean ====
section
/-! DEFINITION. The word types of the block: a byte, a register address, a 16-bit field (00_scope.md R5, R7). -/
namespace Sys2Proof

/-- One register cell, one FIFO byte, one MOSI or MISO byte (R7; REG_WIDTH = 8, 90_conflicts.md C1). -/
abbrev Byte := BitVec 8

/-- A register address, 0x00 to 0x7F (R5: ADDR_BITS = 7). -/
abbrev RegAddr := BitVec 7

/-- A 16-bit value: an axis value (int16), a timestamp, a record count or a watermark (R7). -/
abbrev Half := BitVec 16

end Sys2Proof
end

