-- ==== Sys2Proof/Config.lean ====
section
/-! DEFINITION. What is fixed for one chip: the source's fixed numbers and named addresses (00_scope.md R5, R6), the
parameters that R5 marks OPEN, the reset values that the spec leaves OPEN, and the free byte of the exchanges whose
MISO the spec leaves to a draw. An OPEN parameter is an opaque constant, so a statement about it holds for every
value that meets the spec's constraint. -/
namespace Sys2Proof

/-- RECORD_SIZE, bytes per FIFO record (R5). -/
abbrev Config.recordSize : Nat := 16

/-- STAGE_DATA_CAP, the data bytes a write transaction retains (R5). -/
abbrev Config.stageDataCap : Nat := 2

/-- FIFO_EMPTY, the byte a pop of an empty FIFO returns (R5). -/
abbrev Config.fifoEmpty : Byte := 0x80#8

/-- RECORD_HEADER, byte 0 of every record (R5). -/
abbrev Config.recordHeader : Byte := 0x68#8

/-- RESET_REG, the value of every register cell when the state is created (R5, R19; 92_eei_decisions.md D1). -/
abbrev Config.resetReg : Byte := 0x00#8

/-- The filler byte of a write data beat and the answer of a read in a non-functional bank (R69, R80). -/
abbrev Config.zeroByte : Byte := 0x00#8

/-- What a byte of FIFO_MEM that no push has written reads as. DESIGN CHOICE (log entry 1): R31 leaves the reset
contents unconstrained and unobservable. -/
abbrev Config.fifoMemReset : Byte := 0x00#8

/-- INT_STATUS (R6, R21). -/
abbrev Config.intStatus : RegAddr := 0x2D#7
/-- FIFO_COUNT_LO, which the source names FIFO_COUNTH (R6, R22; 90_conflicts.md C2). -/
abbrev Config.fifoCountLo : RegAddr := 0x2E#7
/-- FIFO_COUNT_HI, which the source names FIFO_COUNTL (R6, R22; 90_conflicts.md C2). -/
abbrev Config.fifoCountHi : RegAddr := 0x2F#7
/-- FIFO_DATA (R6, R23). -/
abbrev Config.fifoData : RegAddr := 0x30#7
/-- PWR_MGMT0 (R6, R24). -/
abbrev Config.pwrMgmt0 : RegAddr := 0x4E#7
/-- GYRO_CONFIG0 (R6, R25): storage only. -/
abbrev Config.gyroConfig0 : RegAddr := 0x4F#7
/-- ACCEL_CONFIG0 (R6, R26). -/
abbrev Config.accelConfig0 : RegAddr := 0x50#7
/-- WM_LO, which the source names ACCEL_CONFIG2 (R6, R27). -/
abbrev Config.wmLo : RegAddr := 0x60#7
/-- WM_HI, which the source names ACCEL_CONFIG3 (R6, R27). -/
abbrev Config.wmHi : RegAddr := 0x61#7
/-- REG_BANK_SEL (R6, R28). -/
abbrev Config.regBankSel : RegAddr := 0x76#7

/-- PIN_RULE: which address the FIFO_DATA pin test of a read burst looks at (R5, R115). -/
inductive PinRule where
  /-- the address being incremented -/
  | current
  /-- the start address of the transaction -/
  | start
  deriving DecidableEq, Repr, Inhabited

/-- The parameters of R5 that are fixed for one chip and that the source does not give a value for, with PIN_RULE. -/
structure Params where
  /-- FIFO_CAP, the FIFO's capacity in bytes -/
  fifoCap : Nat
  /-- ODR_TABLE: the rate of each 4-bit code in millihertz, or no rate (R103) -/
  odrTable : Vector (Option Nat) 16
  /-- TEMP_PLACEHOLDER, byte 13 of every record (R101) -/
  tempPlaceholder : Byte
  /-- PIN_RULE (R115) -/
  pinRule : PinRule
  deriving DecidableEq, Repr, Inhabited

/-- A rate the table may hold: a positive number of millihertz (R103 (d)), and at most 10^12, because R41 wants every
period `10^12 div r` to be positive. DEDUCED (log entry 5). -/
def Config.rateOk (r : Option Nat) : Bool :=
  match r with
  | none => true
  | some mhz => decide (0 < mhz ∧ mhz ≤ 1000000000000)

/-- The spec's constraints on the OPEN parameters: 16 ≤ FIFO_CAP ≤ 16 × 65535 (R5) and R103 (a) to (d). -/
def Params.ok (p : Params) : Bool :=
  decide (16 ≤ p.fifoCap ∧ p.fifoCap ≤ 16 * 65535)
    && p.odrTable[0] == none
    && p.odrTable[6] == some 1000000
    && p.odrTable.toList.contains (some 16000000)
    && p.odrTable.toList.contains (some 32000000)
    && p.odrTable.toList.all Config.rateOk

/-- The reference ODR table of R103, from the physical part's data sheet. PRESUMED (log entry 5): the spec calls it not
normative; it serves the tests and gives `Config.params` one value that meets the constraints. -/
def Config.referenceOdr : Vector (Option Nat) 16 :=
  #v[none, some 32000000, some 16000000, some 8000000, some 4000000, some 2000000, some 1000000, some 200000,
    some 100000, some 50000, some 25000, some 12500, some 6250, some 3125, none, some 500000]

/-- The reference parameters of 95_test_vectors.md's start state S0 (with t0 = 0x19 as an arbitrary placeholder). -/
def Config.reference : Params :=
  { fifoCap := 2048, odrTable := Config.referenceOdr, tempPlaceholder := 0x19#8, pinRule := .current }

/-- The chip's parameters before the spec's constraints are imposed. OPEN in R5: nothing is known of it. -/
opaque Config.rawParams : Params

/-- The chip's parameters: any that meet the spec's constraints, with PIN_RULE = CURRENT (R5; 92_eei_decisions.md D16).
DESIGN CHOICE (log entry 2): a constant that met none of the constraints would give way to the reference parameters. -/
def Config.params : Params :=
  if Config.rawParams.ok then { Config.rawParams with pinRule := .current } else Config.reference

/-- The state of the sample timer at creation before the constraint period > 0 is imposed. OPEN in R41. -/
opaque Config.rawInitTimer : Option Nat × Nat

/-- INIT_TIMER's period: none, or any positive number of nanoseconds (R41; 92_eei_decisions.md D5). DESIGN CHOICE (log
entry 15): a period of 0 counts as none. -/
def Config.initPeriod : Option Nat := Config.rawInitTimer.1.filter (0 < ·)

/-- INIT_TIMER's time of the next tick: any (R41). -/
def Config.initNext : Nat := Config.rawInitTimer.2

/-- An amplitude the spec allows: in [0.0, 1.0] (R42, R46 (f)). DESIGN CHOICE (log entry 11): a rational number stands for
the spec's real number. -/
def Config.ampInRange (q : Rat) : Bool := decide (0 ≤ q ∧ q ≤ 1)

/-- AMP_INIT before its range is imposed. OPEN in R42. -/
opaque Config.rawAmps : Rat × Rat

/-- AMP_INIT for AMP_A: any value in [0.0, 1.0] (R42; 92_eei_decisions.md D6). DESIGN CHOICE (log entry 15): a value
outside it counts as 0.0. -/
def Config.initAmpA : Rat := if Config.ampInRange Config.rawAmps.1 then Config.rawAmps.1 else 0

/-- AMP_INIT for AMP_G: any value in [0.0, 1.0] (R42; 92_eei_decisions.md D6). DESIGN CHOICE (log entry 15): as for
AMP_A. -/
def Config.initAmpG : Rat := if Config.ampInRange Config.rawAmps.2 then Config.rawAmps.2 else 0

/-- The n-th byte of the block's free draws: the MISO byte of a command beat (R65, R112) and each filler byte of an
anomalous exchange (R120). Nothing constrains it (log entry 3). -/
opaque Config.freeByte : Nat → Byte

end Sys2Proof
end

