-- ==== Sys2Proof/Syntax.lean ====
section
/-! DEFINITION. The block's instructions: one constructor per row of spec/opcode_table.json. The block runs no program
(10_state.md R18): its instructions are the two command bytes of beat 0 and the seven access classes of
30_encoding.md R73. -/
namespace Sys2Proof

/-- One row of the opcode table. A write access carries the data byte that is committed with it (R84). -/
inductive Instr where
  /-- RD: a command byte with bit 7 = 1, naming the start address (R66, R112) -/
  | rd (addr : RegAddr)
  /-- WR: a command byte with bit 7 = 0, naming the start address (R66, R112) -/
  | wr (addr : RegAddr)
  /-- RD_INT_STATUS: read-to-clear of INT_STATUS (R82) -/
  | rdIntStatus
  /-- RD_FIFO_DATA: FIFO pop through the bus (R83) -/
  | rdFifoData
  /-- RD_REG: plain register read (R81) -/
  | rdReg (addr : RegAddr)
  /-- WR_REG_BANK_SEL: bank select (R86) -/
  | wrRegBankSel (v : Byte)
  /-- WR_ACCEL_CONFIG0: ODR configuration (R87) -/
  | wrAccelConfig0 (v : Byte)
  /-- WR_FIFO_DATA: a bus write to FIFO_DATA (R88) -/
  | wrFifoData (v : Byte)
  /-- WR_REG: plain store (R85) -/
  | wrReg (addr : RegAddr) (v : Byte)
  deriving DecidableEq, Repr

/-- What a byte on the bus is read as. The command byte and the access word have the same layout, and only the beat
tells them apart: beat 0 carries the command byte (R71), every access has an access word (R72). -/
inductive Phase where
  /-- beat 0 of a transaction -/
  | command
  /-- one register access of a transaction -/
  | access
  deriving DecidableEq, Repr

/-- The phase in which an instruction is read. -/
def Instr.phase (i : Instr) : Phase :=
  match i with
  | .rd _ => .command
  | .wr _ => .command
  | .rdIntStatus => .access
  | .rdFifoData => .access
  | .rdReg _ => .access
  | .wrRegBankSel _ => .access
  | .wrAccelConfig0 _ => .access
  | .wrFifoData _ => .access
  | .wrReg _ _ => .access

end Sys2Proof
end

