-- ==== Sys2Proof/WellFormed.lean ====
section
/-! DEFINITION. Well-formed instructions: the generic access classes leave out the addresses that a more specific
pattern takes (30_encoding.md R72, R73). -/
namespace Sys2Proof

/-- R73: RD_REG is every read access but 0x2D and 0x30 (R81), and WR_REG every write access but 0x30, 0x50 and 0x76
(R85). Every other instruction is well-formed with any operand (R76). -/
def Instr.wellFormed (i : Instr) : Bool :=
  match i with
  | .rd _ => true
  | .wr _ => true
  | .rdIntStatus => true
  | .rdFifoData => true
  | .rdReg a => a != Config.intStatus && a != Config.fifoData
  | .wrRegBankSel _ => true
  | .wrAccelConfig0 _ => true
  | .wrFifoData _ => true
  | .wrReg a _ => a != Config.fifoData && a != Config.accelConfig0 && a != Config.regBankSel

end Sys2Proof
end

