-- ==== Sys2Proof/Decode.lean ====
section
/-! DEFINITION. Decoding of command bytes and access words and the encoder (30_encoding.md R66 to R73, R76). Every byte
value decodes; the decoder rejects, by name, only a list of bytes that ends too early. -/
namespace Sys2Proof

/-- Bit 7 of a command byte or access word: 1 is a read (R66, R67). -/
def isReadByte (b : Byte) : Bool := b.getLsbD 7

/-- Bits 6:0 of a command byte or access word: the address (R66, R68). -/
def addrField (b : Byte) : RegAddr := b.extractLsb' 0 7

/-- The byte `{dir, addr}`, with dir = 1 for a read (R66, R72). -/
def accessWord (isRead : Bool) (a : RegAddr) : Byte := BitVec.ofBool isRead ++ a

/-- The command byte of beat 0 (R66 to R68). All 256 values are valid (R76). -/
def decodeCommand (b : Byte) : Instr :=
  if isReadByte b then .rd (addrField b) else .wr (addrField b)

/-- A read access word, by the opcode table's match and mask: a pattern with mask 0xFF goes before the generic one
(R72, R73). -/
def decodeRead (aw : Byte) : Instr :=
  if aw = 0xAD#8 then .rdIntStatus
  else if aw = 0xB0#8 then .rdFifoData
  else .rdReg (addrField aw)

/-- A write access word with its data byte, by the opcode table's match and mask (R72, R73). -/
def decodeWrite (aw : Byte) (v : Byte) : Instr :=
  if aw = 0x76#8 then .wrRegBankSel v
  else if aw = 0x50#8 then .wrAccelConfig0 v
  else if aw = 0x30#8 then .wrFifoData v
  else .wrReg (addrField aw) v

/-- What the decoder answers: an instruction with the bytes after it, or a rejection by name. -/
inductive Decoded where
  /-- an instruction, and the bytes that follow it -/
  | instr (i : Instr) (rest : List Byte)
  /-- there is no byte to decode -/
  | noByte
  /-- a write access word without its data byte -/
  | noDataByte
  deriving DecidableEq, Repr

/-- The decoder, total on any list of bytes. A command byte stands alone; a read access word stands alone; a write
access word is followed by its data byte. -/
def decode (p : Phase) (bytes : List Byte) : Decoded :=
  match p, bytes with
  | _, [] => .noByte
  | .command, b :: rest => .instr (decodeCommand b) rest
  | .access, b :: rest =>
    if isReadByte b then .instr (decodeRead b) rest
    else
      match rest with
      | [] => .noDataByte
      | v :: rest' => .instr (decodeWrite b v) rest'

/-- The bytes of an instruction (R66, R72, R73; the MOSI bytes of R79). -/
def encode (i : Instr) : List Byte :=
  match i with
  | .rd a => [accessWord true a]
  | .wr a => [accessWord false a]
  | .rdIntStatus => [0xAD#8]
  | .rdFifoData => [0xB0#8]
  | .rdReg a => [accessWord true a]
  | .wrRegBankSel v => [0x76#8, v]
  | .wrAccelConfig0 v => [0x50#8, v]
  | .wrFifoData v => [0x30#8, v]
  | .wrReg a v => [accessWord false a, v]

/-- The first byte of an instruction whose bits are w: bits 7 to 0. -/
def tableByte0 (w : Nat) : Byte := BitVec.ofNat 8 w

/-- The second byte of an instruction whose first nbits bits are w: bits 15 to 8, zero above nbits. -/
def tableByte1 (nbits w : Nat) : Byte := BitVec.ofNat 8 ((w % 2 ^ nbits) / 256)

/-- The instruction the decoder reads from an instruction whose bits are w. A word alone does not say whether it is the
command byte of beat 0 or an access word (R72: they are equal for the first access); it is read as an access word, the
rows that say what is done (log entry 14). -/
def decodeTableWord (nbits w : Nat) : Option Instr :=
  match decode .access [tableByte0 w, tableByte1 nbits w] with
  | .instr i _ => some i
  | .noByte => none
  | .noDataByte => none

end Sys2Proof
end

