-- ==== Sys2Proof/Machine/State.lean ====
section
/-! DEFINITION. The block's whole state (10_state.md R17), the events its host delivers (R45) and its free choice of them
without end (00_scope.md R16), the reasons a step has no next state, and the state after reset (70_reset_and_hazards.md R139). -/
namespace Sys2Proof.Machine

/-- FIFO_MEM as a list of (index, byte) cells in one canonical form: indices strictly rising, no byte equal to what an
unlisted index reads as (`Memory.wf`, in Ops.lean). -/
abbrev Memory := List Host.Cell

/-- The six free int16 draws of one tick, inputs of the TICK event (R43, R45, R100). DEDUCED (log entry 10): the event
carries them. -/
structure AxisDraws where
  ax : Half
  ay : Half
  az : Half
  gx : Half
  gy : Half
  gz : Half
  deriving DecidableEq, Repr

/-- Which amplitude attribute SET_AMP writes (R108). -/
inductive AmpSel where
  /-- AMP_A, the accelerometer's -/
  | accel
  /-- AMP_G, the gyro's -/
  | gyro
  deriving DecidableEq, Repr

/-- An event at the block's boundary with its inputs other than NOW (R45). -/
inductive Event where
  /-- CS_FALL: falling edge of chip-select (R111) -/
  | csFall
  /-- CS_RISE: rising edge of chip-select (R118, R119) -/
  | csRise
  /-- BEAT(mosi): one completed one-byte exchange (R112 to R117) -/
  | beat (mosi : Byte)
  /-- XFER_ANOMALY(width): a completed exchange whose width is not 1 (R120) -/
  | xferAnomaly (width : Nat)
  /-- TICK: one expiry of the sample timer, with its random draws (R97) -/
  | tick (draws : AxisDraws)
  /-- SET_AMP(which, value): the host writes an amplitude attribute (R108) -/
  | setAmp (which : AmpSel) (value : Rat)
  deriving DecidableEq, Repr

/-- One event and the moment NOW at which the host delivers it, in nanoseconds (R9, R43). -/
structure Delivery where
  now : Nat
  event : Event
  deriving DecidableEq, Repr

end Sys2Proof.Machine

namespace Sys2Proof

/-- What the host chooses to deliver next when it is asked for the n-th time, the first event first: none, some, or, over
all n, infinitely many (00_scope.md R16). Nothing constrains it, so a statement holds for every sequence of events, finite
or infinite. DESIGN CHOICE (log entry 4). It stands here and not in Config.lean because it is made of events. -/
opaque Config.hostEvents : Nat → List Machine.Delivery

end Sys2Proof

namespace Sys2Proof.Machine

/-- The diagnostic outputs of R125. -/
inductive Diag where
  /-- a write data beat beyond the staging capacity (R117) -/
  | excessWriteByte
  /-- an exchange whose width is not 1 (R120) -/
  | badExchangeWidth
  deriving DecidableEq, Repr

/-- There is no fault: "the block never traps, aborts, halts or raises an exception" (R123). The type is empty, so no
meaning can answer with one. -/
inductive Fault
  deriving DecidableEq, Repr

/-- Why a step has no next state: but for `notModelled`, each constructor is a host duty of R46 that the event at the
head of the inbox breaks, and "an event the duties exclude has no step in the model" (R46, 92_eei_decisions.md D27,
D33). All are raised by `State.brokenDuty` (Transaction.lean), before any meaning runs. Each is safe: the model stops where
the original software would do something that the spec does not give. -/
inductive Refusal where
  /-- An instruction without a meaning; no arm of exec answers with it in this package. Safe. -/
  | notModelled (mnemonic : String)
  /-- Raised by `State.brokenDuty`: NOW went back (duty (b)). Safe. -/
  | clockWentBack
  /-- Raised by `State.brokenDuty`: the tick due at TMR_NEXT was not delivered at its time (duty (e)). Safe. -/
  | tickMissed
  /-- Raised by `State.brokenDuty`: a TICK while the timer is stopped, or not at TMR_NEXT (duty (e)). Safe. -/
  | tickNotDue
  /-- Raised by `State.brokenDuty`: a BEAT while SEL is false (duty (c)). Safe. -/
  | beatWhileDeselected
  /-- Raised by `State.brokenDuty`: an XFER_ANOMALY while SEL is false (duty (c)). Safe. -/
  | anomalyWhileDeselected
  /-- Raised by `State.brokenDuty`: an XFER_ANOMALY of width 1, which is no anomaly (R45). Safe. -/
  | anomalyOfWidthOne
  /-- Raised by `State.brokenDuty`: a CS_FALL while SEL is true (duty (d)). Safe. -/
  | csFallWhileSelected
  /-- Raised by `State.brokenDuty`: a CS_RISE while SEL is false (duty (d)). Safe. -/
  | csRiseWhileDeselected
  /-- Raised by `State.brokenDuty`: a SET_AMP value outside [0.0, 1.0] (duty (f)). Safe. -/
  | ampOutOfRange
  deriving DecidableEq, Repr

/-- ChipState (R17), then the fields that are the model's own: the chip's parameters, the host's clock and inputs, and
the outputs (log entries 2, 3, 4, 6 and 12). -/
structure State where
  /-- REG, 128 cells of 8 bits (R19 to R29) -/
  reg : Vector Byte 128
  /-- BANK (R30) -/
  bank : Byte
  /-- FIFO_MEM (R31) -/
  fifoMem : Memory
  /-- FIFO_W (R32) -/
  fifoW : Nat
  /-- FIFO_R (R32) -/
  fifoR : Nat
  /-- FIFO_CNT (R33) -/
  fifoCnt : Nat
  /-- SEL (R35) -/
  sel : Bool
  /-- BYTE_IDX (R36) -/
  byteIdx : Nat
  /-- IS_WRITE (R37) -/
  isWrite : Bool
  /-- REG_ADDR (R38) -/
  regAddr : RegAddr
  /-- STAGE (R39) -/
  stage : Vector Byte 3
  /-- TMR_PERIOD, none while the timer is stopped (R41) -/
  tmrPeriod : Option Nat
  /-- TMR_NEXT (R41) -/
  tmrNext : Nat
  /-- AMP_A (R42; log entry 11) -/
  ampA : Rat
  /-- AMP_G (R42; log entry 11) -/
  ampG : Rat
  /-- the model's own: the parameters of R5 marked OPEN; no step writes them -/
  par : Params
  /-- the model's own: NOW of the event being handled, or of the last one (R9) -/
  now : Nat
  /-- the model's own: the events the host has chosen so far and will deliver, the next one first (R45, R60) -/
  inbox : List Delivery
  /-- the model's own: how often the host has been asked for further events (`Config.hostEvents`; R16) -/
  asked : Nat
  /-- the model's own: the MISO bytes given so far, the newest first (R15) -/
  miso : List Byte
  /-- the model's own: the diagnostics emitted so far, the newest first (R125) -/
  diag : List Diag
  /-- the model's own: how many free bytes (`Config.freeByte`) have been drawn -/
  draws : Nat
  deriving DecidableEq, Repr

/-- The state after reset (R139), by the spec's decisions D1 to D6. DESIGN CHOICE: the contents of FIFO_MEM (log entry 1)
and of STAGE (log entry 7), which R139 leaves unconstrained, and the model's own fields (log entry 17). -/
def State.reset : State where
  reg := Vector.replicate 128 Config.resetReg
  bank := 0
  fifoMem := []
  fifoW := 0
  fifoR := 0
  fifoCnt := 0
  sel := false
  byteIdx := 0
  isWrite := false
  regAddr := 0
  stage := #v[0, 0, 0]
  tmrPeriod := Config.initPeriod
  tmrNext := Config.initNext
  ampA := Config.initAmpA
  ampG := Config.initAmpG
  par := Config.params
  now := 0
  inbox := []
  asked := 0
  miso := []
  diag := []
  draws := 0

end Sys2Proof.Machine
end

