-- ==== Sys2Proof/Machine/Ops.lean ====
section
/-! DEFINITION. The named operations over memory, registers and outputs that every meaning is built from.

The block has no exception to take and no return from one: "No condition saves state, changes mode, vectors anywhere or
needs a return" (60_exceptions.md R123, R133). So no operation for either stands here; what the spec gives in their place
are the two interrupt flags of Flags.lean. -/
namespace Sys2Proof.Machine

/-- Byte a of FIFO_MEM. An index that no push has written reads as `Config.fifoMemReset` (R31, log entry 1). -/
def Memory.read (m : Memory) (a : Nat) : Byte :=
  match m with
  | [] => Config.fifoMemReset
  | (k, x) :: rest => if k = a then x else Memory.read rest a

/-- `FIFO_MEM[a] <- v`, keeping the canonical form: writing what an unlisted index reads as removes the cell. -/
def Memory.write (m : Memory) (a : Nat) (v : Byte) : Memory :=
  match m with
  | [] => if v = Config.fifoMemReset then [] else [(a, v)]
  | (k, x) :: rest =>
    if a < k then
      if v = Config.fifoMemReset then (k, x) :: rest else (a, v) :: (k, x) :: rest
    else if a = k then
      if v = Config.fifoMemReset then rest else (a, v) :: rest
    else (k, x) :: Memory.write rest a v

/-- The canonical form with every index at least lo. -/
def Memory.wfFrom (lo : Nat) (m : Memory) : Bool :=
  match m with
  | [] => true
  | (k, x) :: rest => decide (lo ≤ k) && x != Config.fifoMemReset && Memory.wfFrom (k + 1) rest

/-- The canonical form: indices strictly rising, no cell equal to what an unlisted index reads as. -/
def Memory.wf (m : Memory) : Bool := Memory.wfFrom 0 m

/-- `REG[a]`: the raw read of a cell (R8). -/
def State.regAt (s : State) (a : RegAddr) : Byte :=
  s.reg[a.toNat]'(by have := a.isLt; omega)

/-- `REG[a] <- v`: the raw write of a cell (R8). -/
def State.writeReg (s : State) (a : RegAddr) (v : Byte) : State :=
  { s with reg := s.reg.set a.toNat v (by have := a.isLt; omega) }

/-- `BANK <- v`, the full byte (R30; 92_eei_decisions.md D23). -/
def State.setBank (s : State) (v : Byte) : State := { s with bank := v }

/-- The FIFO's ring, indices and fill level (R31 to R33), written together. -/
def State.setFifo (s : State) (mem : Memory) (w r cnt : Nat) : State :=
  { s with fifoMem := mem, fifoW := w, fifoR := r, fifoCnt := cnt }

/-- `TMR_PERIOD <- p` and `TMR_NEXT <- t` (R41). -/
def State.setTimer (s : State) (p : Option Nat) (t : Nat) : State :=
  { s with tmrPeriod := p, tmrNext := t }

/-- The block gives v on MISO (R15). -/
def State.respond (s : State) (v : Byte) : State := { s with miso := v :: s.miso }

/-- The block gives a free byte on MISO: a draw (R8; log entry 3). -/
def State.respondFree (s : State) : State :=
  { s with miso := Config.freeByte s.draws :: s.miso, draws := s.draws + 1 }

/-- The block gives n free bytes on MISO, one draw each (R120). -/
def State.respondFreeMany (n : Nat) (s : State) : State :=
  match n with
  | 0 => s
  | k + 1 => State.respondFreeMany k s.respondFree

/-- `report Diag(kind)`: an output only (R125). -/
def State.report (s : State) (d : Diag) : State := { s with diag := d :: s.diag }

/-- Run k after o, if o is a next state. -/
def andThen (o : Host.Outcome State Fault Refusal) (k : State → Host.Outcome State Fault Refusal) :
    Host.Outcome State Fault Refusal :=
  match o with
  | .next s => k s
  | .fault f => .fault f
  | .refused r => .refused r

/-- A bus read's end: the byte read goes out on MISO in the same beat (R70, R113). -/
def answer (r : Byte × State) : Host.Outcome State Fault Refusal := .next (r.2.respond r.1)

/-- The bank check of BusRead (R80): with BANK ≠ 0 every read gives 0x00 and has no side effect. -/
def State.gateRead (s : State) (k : State → Byte × State) : Byte × State :=
  if s.bank = 0#8 then k s else (Config.zeroByte, s)

/-- The bank check of BusWrite (R84): with BANK ≠ 0 every write but one to REG_BANK_SEL is dropped. -/
def State.gateWrite (s : State) (k : State → State) : State :=
  if s.bank = 0#8 then k s else s

end Sys2Proof.Machine
end

