-- ==== Sys2Proof/Machine/Operands.lean ====
section
/-! DEFINITION. How operands are assembled from bits (30_encoding.md R74, R75) and the addresses of a burst's accesses
(43_spi_transaction.md R115, R116). Every multi-byte value is little-endian (20_memory.md R48). -/
namespace Sys2Proof.Machine

/-- `v[7:0]` -/
def lowByte (v : Half) : Byte := v.extractLsb' 0 8

/-- `v[15:8]` -/
def highByte (v : Half) : Byte := v.extractLsb' 8 8

/-- `le16(lo, hi)` (R7) -/
def le16 (lo hi : Byte) : Half := lo.zeroExtend 16 ||| (hi.zeroExtend 16 <<< 8)

/-- WM, the FIFO watermark in records (R27, R74) -/
def State.watermark (s : State) : Half := le16 (s.regAt Config.wmLo) (s.regAt Config.wmHi)

/-- The record count: `FIFO_CNT div RECORD_SIZE` (R33, R92) -/
def State.recordCount (s : State) : Nat := s.fifoCnt / Config.recordSize

/-- The 16 bits of the record count that go to the count pair (R74) -/
def countHalf (rc : Nat) : Half := BitVec.ofNat 16 rc

/-- The ODR code of a byte written to ACCEL_CONFIG0: `v[3:0]` (R74, R104) -/
def odrCode (v : Byte) : BitVec 4 := v.extractLsb' 0 4

/-- `ODR_TABLE[code]` (R103) -/
def Params.rate (p : Params) (code : BitVec 4) : Option Nat :=
  p.odrTable[code.toNat]'(by have := code.isLt; omega)

/-- The period of a rate in millihertz, in nanoseconds: `10^12 div r` (R105) -/
def periodOf (mhz : Nat) : Nat := 1000000000000 / mhz

/-- SAMPLE_EN: `REG[0x4E][1]` (R24, R74) -/
def State.sampleEnabled (s : State) : Bool := (s.regAt Config.pwrMgmt0).getLsbD 1

/-- STAGE[j] (R39) -/
def State.staged (s : State) (j : Nat) : Byte := s.stage[j]?.getD 0

/-- The start address of the current transaction: `STAGE[0][6:0]` (R68) -/
def State.startAddr (s : State) : RegAddr := addrField (s.staged 0)

/-- NextAddr's pin test (R115) -/
def State.pinned (s : State) (a : RegAddr) : Bool :=
  match s.par.pinRule with
  | .current => a == Config.fifoData
  | .start => s.startAddr == Config.fifoData

/-- NextAddr: the address of the next read data beat, wrapping from 0x7F to 0x00 (R115, R18) -/
def State.nextAddr (s : State) (a : RegAddr) : RegAddr := if s.pinned a then a else a + 1

/-- CommitAddr(i): the address of the i-th staged data byte of a write; the commit does not pin (R116) -/
def State.commitAddr (s : State) (i : Nat) : RegAddr := s.startAddr + BitVec.ofNat 7 i

/-- How many staged data bytes a CS_RISE commits: `min(BYTE_IDX - 1, STAGE_DATA_CAP)` (R118) -/
def State.commitCount (s : State) : Nat := min (s.byteIdx - 1) Config.stageDataCap

end Sys2Proof.Machine
end

