-- ==== Sys2Proof/Machine/Flags.lean ====
section
/-! DEFINITION. The block's two interrupt flags (60_exceptions.md R129 to R133): bits of INT_STATUS that the hardware only
ever sets, by OR (10_state.md R21). -/
namespace Sys2Proof.Machine

/-- FIFO_FULL, INT_STATUS bit 1 (R21, R129) -/
def fifoFullFlag : Byte := 0x02#8

/-- FIFO_WM, INT_STATUS bit 2 (R21, R129) -/
def fifoWmFlag : Byte := 0x04#8

/-- `REG[0x2D] <- REG[0x2D] | flag`, with no bank check (R89, R91, R92) -/
def State.raiseFlag (s : State) (flag : Byte) : State :=
  s.writeReg Config.intStatus (s.regAt Config.intStatus ||| flag)

/-- The watermark test: an unsigned ≥ between the record count and WM (R92 (d)) -/
def State.watermarkReached (s : State) : Bool := decide (s.watermark.toNat ≤ s.recordCount)

/-- Set FIFO_WM when the record count is at or above the watermark; never clear it (R92) -/
def State.testWatermark (s : State) : State :=
  if s.watermarkReached then s.raiseFlag fifoWmFlag else s

end Sys2Proof.Machine
end

