-- ==== Sys2Proof/Machine/Fifo.lean ====
section
/-! DEFINITION. The FIFO engine (41_fifo_engine.md R90 to R96). -/
namespace Sys2Proof.Machine

/-- UpdateCount (R92): write the record count to the count pair, low byte at the lower address, and test the watermark. -/
def State.updateCount (s : State) : State :=
  ((s.writeReg Config.fifoCountLo (lowByte (countHalf s.recordCount))).writeReg Config.fifoCountHi
    (highByte (countHalf s.recordCount))).testWatermark

/-- The bytes of buf copied into a ring of cap bytes from index w on, modulo cap (R90). -/
def writeRing (cap w : Nat) (buf : List Byte) (m : Memory) : Memory :=
  match buf with
  | [] => m
  | b :: rest => writeRing cap (w + 1) rest (m.write (w % cap) b)

/-- PushOverflow(n) (R91): drop the oldest n bytes, leave the count, set FIFO_FULL. -/
def State.pushOverflow (s : State) (n : Nat) : State :=
  (s.setFifo s.fifoMem s.fifoW ((s.fifoR + n) % s.par.fifoCap) s.fifoCnt).raiseFlag fifoFullFlag

/-- The first half of Push (R90): copy the bytes and advance FIFO_W, on both paths. -/
def State.copyIn (s : State) (buf : List Byte) : State :=
  s.setFifo (writeRing s.par.fifoCap s.fifoW buf s.fifoMem) ((s.fifoW + buf.length) % s.par.fifoCap) s.fifoR s.fifoCnt

/-- The second half of Push before its count refresh (R90): overflow, or count the bytes. -/
def State.countIn (s : State) (n : Nat) : State :=
  if s.par.fifoCap < s.fifoCnt + n then s.pushOverflow n
  else s.setFifo s.fifoMem s.fifoW s.fifoR (s.fifoCnt + n)

/-- Push(buf, n) with n the length of buf (R90). -/
def State.push (s : State) (buf : List Byte) : State :=
  ((s.copyIn buf).countIn buf.length).updateCount

/-- PopEmpty (R94): the sentinel; no state changes. -/
def State.popEmpty (s : State) : Byte × State := (Config.fifoEmpty, s)

/-- Pop of a non-empty FIFO before its count refresh (R93). -/
def State.takeOne (s : State) : State :=
  s.setFifo s.fifoMem s.fifoW ((s.fifoR + 1) % s.par.fifoCap) (s.fifoCnt - 1)

/-- Pop() (R93, R94). -/
def State.pop (s : State) : Byte × State :=
  if s.fifoCnt = 0 then s.popEmpty else (s.fifoMem.read s.fifoR, s.takeOne.updateCount)

end Sys2Proof.Machine
end

