-- ==== Sys2Proof/Machine/Sample.lean ====
section
/-! DEFINITION. The sample generator and the ODR timer (42_sample_generator.md R97 to R109). -/
namespace Sys2Proof.Machine

/-- AxisDraw(amp) (R100): a free int16, but 0 at an amplitude of exactly 0.0. -/
def axisDraw (amp : Rat) (draw : Half) : Half := if amp = 0 then 0 else draw

/-- Timestamp(NOW): the low 16 bits of the microsecond count (R102). -/
def timestamp (now : Nat) : Half := BitVec.ofNat 16 (now / 1000)

/-- MakeRecord() (R99), in the layout of R75. -/
def State.makeRecord (s : State) (d : AxisDraws) : List Byte :=
  [Config.recordHeader,
    lowByte (axisDraw s.ampA d.ax), highByte (axisDraw s.ampA d.ax),
    lowByte (axisDraw s.ampA d.ay), highByte (axisDraw s.ampA d.ay),
    lowByte (axisDraw s.ampA d.az), highByte (axisDraw s.ampA d.az),
    lowByte (axisDraw s.ampG d.gx), highByte (axisDraw s.ampG d.gx),
    lowByte (axisDraw s.ampG d.gy), highByte (axisDraw s.ampG d.gy),
    lowByte (axisDraw s.ampG d.gz), highByte (axisDraw s.ampG d.gz),
    s.par.tempPlaceholder,
    lowByte (timestamp s.now), highByte (timestamp s.now)]

/-- The periodic re-arm of a tick: `TMR_NEXT <- TMR_NEXT + P` (R97, R107). -/
def State.rearm (s : State) : State :=
  match s.tmrPeriod with
  | none => s
  | some p => s.setTimer (some p) (s.tmrNext + p)

/-- TICK (R97, R98): re-arm the timer, and push one record while SAMPLE_EN is set. -/
def State.tick (s : State) (d : AxisDraws) : State :=
  if s.rearm.sampleEnabled then s.rearm.push (s.rearm.makeRecord d) else s.rearm

/-- TimerReconfigure(code) (R106): a code with a rate restarts the timer at NOW; any other changes nothing. -/
def State.timerReconfigure (s : State) (code : BitVec 4) : State :=
  match Params.rate s.par code with
  | none => s
  | some r => s.setTimer (some (periodOf r)) (s.now + periodOf r)

/-- SET_AMP(which, value) (R108). -/
def State.writeAmp (s : State) (which : AmpSel) (value : Rat) : State :=
  match which with
  | .accel => { s with ampA := value }
  | .gyro => { s with ampG := value }

end Sys2Proof.Machine
end

