-- ==== Sys2Proof/Machine/Command.lean ====
section
/-! DEFINITION. The command bytes RD and WR: the command beat (43_spi_transaction.md R112). The data beats that follow run
the access classes; Transaction.lean sends each beat to its rule. -/
namespace Sys2Proof.Machine

/-- The command beat (R112): stage the command byte, latch direction and address, count the beat. Its MISO byte is a
free draw. No register is read. -/
def State.commandBeat (s : State) (isRead : Bool) (a : RegAddr) : State :=
  State.respondFree
    { s with
      stage := s.stage.set 0 (accessWord isRead a)
      isWrite := !isRead
      regAddr := a
      byteIdx := 1 }

/-- RD (R112): the command beat of a read transaction. The step calls it with SEL = true and BYTE_IDX = 0 alone (log entry
16). -/
def execRd (a : RegAddr) (s : State) : Host.Outcome State Fault Refusal := .next (s.commandBeat true a)

/-- WR (R112): the command beat of a write transaction. -/
def execWr (a : RegAddr) (s : State) : Host.Outcome State Fault Refusal := .next (s.commandBeat false a)

end Sys2Proof.Machine
end

