-- ==== Sys2Proof/Machine/ReadAccess.lean ====
section
/-! DEFINITION. The read access classes, each with BusRead's bank check (40_register_file.md R80 to R83). -/
namespace Sys2Proof.Machine

/-- RD_REG in bank 0 (R81): the cell, with no side effect. -/
def State.plainRead (a : RegAddr) (s : State) : Byte × State := (s.regAt a, s)

/-- RD_INT_STATUS in bank 0 (R82): the value before the clear, and the clear, in one step. -/
def State.readToClear (s : State) : Byte × State :=
  (s.regAt Config.intStatus, s.writeReg Config.intStatus 0x00#8)

/-- RD_INT_STATUS, access word 0xAD (R80, R82). -/
def execRdIntStatus (s : State) : Host.Outcome State Fault Refusal := answer (s.gateRead State.readToClear)

/-- RD_FIFO_DATA, access word 0xB0 (R80, R83). -/
def execRdFifoData (s : State) : Host.Outcome State Fault Refusal := answer (s.gateRead State.pop)

/-- RD_REG, access word 1aaaaaaa (R80, R81). -/
def execRdReg (a : RegAddr) (s : State) : Host.Outcome State Fault Refusal := answer (s.gateRead (State.plainRead a))

end Sys2Proof.Machine
end

