-- ==== Sys2Proof/Machine/WriteAccess.lean ====
section
/-! DEFINITION. The write access classes, each with BusWrite's bank check (40_register_file.md R84 to R88). -/
namespace Sys2Proof.Machine

/-- WR_ACCEL_CONFIG0 in bank 0 (R87): store the byte, then reconfigure the timer from its low four bits. -/
def State.writeOdr (v : Byte) (s : State) : State :=
  (s.writeReg Config.accelConfig0 v).timerReconfigure (odrCode v)

/-- WR_REG_BANK_SEL, access word 0x76: `BANK <- v` in every bank, by R86 in bank 0 and by the branch of R84 in any
other; the cell is not written. -/
def execWrRegBankSel (v : Byte) (s : State) : Host.Outcome State Fault Refusal := .next (s.setBank v)

/-- WR_ACCEL_CONFIG0, access word 0x50 (R84, R87). -/
def execWrAccelConfig0 (v : Byte) (s : State) : Host.Outcome State Fault Refusal :=
  .next (s.gateWrite (State.writeOdr v))

/-- WR_FIFO_DATA, access word 0x30 (R84, R88): the byte is discarded in every bank. -/
def execWrFifoData (_v : Byte) (s : State) : Host.Outcome State Fault Refusal := .next (s.gateWrite id)

/-- WR_REG, access word 0aaaaaaa (R84, R85): the plain store. -/
def execWrReg (a : RegAddr) (v : Byte) (s : State) : Host.Outcome State Fault Refusal :=
  .next (s.gateWrite (fun t => t.writeReg a v))

end Sys2Proof.Machine
end

