-- ==== Sys2Proof/Machine/Dispatch.lean ====
section
/-! DEFINITION. exec: one arm per constructor of Instr, each one call of that instruction's meaning. -/
namespace Sys2Proof.Machine

def exec (i : Instr) (s : State) : Host.Outcome State Fault Refusal :=
  match i with
  | .rd addr => Sys2Proof.Machine.execRd addr s
  | .wr addr => Sys2Proof.Machine.execWr addr s
  | .rdIntStatus => Sys2Proof.Machine.execRdIntStatus s
  | .rdFifoData => Sys2Proof.Machine.execRdFifoData s
  | .rdReg addr => Sys2Proof.Machine.execRdReg addr s
  | .wrRegBankSel v => Sys2Proof.Machine.execWrRegBankSel v s
  | .wrAccelConfig0 v => Sys2Proof.Machine.execWrAccelConfig0 v s
  | .wrFifoData v => Sys2Proof.Machine.execWrFifoData v s
  | .wrReg addr v => Sys2Proof.Machine.execWrReg addr v s

end Sys2Proof.Machine
end

