-- ==== Sys2Proof/Machine/Transaction.lean ====
section
/-! DEFINITION. The SPI transaction state machine (43_spi_transaction.md R110 to R122) and the delivery of the host's
events under the host's duties (10_state.md R45, R46). It calls exec for every command beat and every register access. -/
namespace Sys2Proof.Machine

/-- CS_FALL (R111): start a transaction. -/
def State.select (s : State) : State := { s with sel := true, byteIdx := 0 }

/-- CS_RISE, the deselect that every transaction ends with (R118, R119). -/
def State.deselect (s : State) : State := { s with sel := false }

/-- A read data beat after its access (R113): the next address and the beat count. -/
def State.advanceRead (s : State) : State :=
  { s with regAddr := s.nextAddr s.regAddr, byteIdx := s.byteIdx + 1 }

/-- The read data beat (R113): the access word is {1, REG_ADDR}; the access happens in this beat. -/
def readBeat (s : State) : Host.Outcome State Fault Refusal :=
  andThen (exec (decodeRead (accessWord true s.regAddr)) s) (fun t => .next t.advanceRead)

/-- The staged write data beat (R114): MISO 0x00. -/
def State.stageBeat (s : State) (b : Byte) : State :=
  State.respond { s with stage := s.stage.setIfInBounds s.byteIdx b, byteIdx := s.byteIdx + 1 } Config.zeroByte

/-- The excess write byte (R117): reported, dropped, MISO 0x00. -/
def State.excessBeat (s : State) : State :=
  State.respond (State.report { s with byteIdx := s.byteIdx + 1 } .excessWriteByte) Config.zeroByte

/-- BEAT(b) while SEL is true (R110, R112 to R114, R117). -/
def beat (b : Byte) (s : State) : Host.Outcome State Fault Refusal :=
  if s.byteIdx = 0 then exec (decodeCommand b) s
  else if s.isWrite = false then readBeat s
  else if s.byteIdx ≤ Config.stageDataCap then .next (s.stageBeat b)
  else .next s.excessBeat

/-- The write access of the i-th staged data byte: the access word {0, CommitAddr(i)} with STAGE[1 + i] (R116, R118). -/
def State.commitAccess (s : State) (i : Nat) : Instr :=
  decodeWrite (accessWord false (s.commitAddr i)) (s.staged (1 + i))

/-- The write accesses that CS_RISE commits, in address order (R118). -/
def State.commitAccesses (s : State) : List Instr :=
  (List.range s.commitCount).map s.commitAccess

/-- Run instructions one after the other, each in the state the one before it left. -/
def execAll (is : List Instr) (s : State) : Host.Outcome State Fault Refusal :=
  match is with
  | [] => .next s
  | i :: rest => andThen (exec i s) (execAll rest)

/-- CS_RISE while SEL is true: the commit of a write transaction (R118), or the end of any other (R119). -/
def csRise (s : State) : Host.Outcome State Fault Refusal :=
  if s.byteIdx ≠ 0 ∧ s.isWrite = true then execAll s.commitAccesses s.deselect
  else .next s.deselect

/-- XFER_ANOMALY(w) while SEL is true (R120): reported; w free filler bytes; no other effect. -/
def State.anomaly (s : State) (w : Nat) : State := State.respondFreeMany w (s.report .badExchangeWidth)

/-- The duty of R46 that an event breaks: none when the host may deliver it. DEDUCED: an excluded event is refused (log entry
8), a tick comes exactly at TMR_NEXT (log entry 9), and an exchange of width 0 is an anomaly (log entry 18). -/
def State.brokenDuty (s : State) (d : Delivery) : Option Refusal :=
  if d.now < s.now then some .clockWentBack
  else if decide (s.tmrNext < d.now) && s.tmrPeriod.isSome then some .tickMissed
  else
    match d.event with
    | .csFall => if s.sel then some .csFallWhileSelected else none
    | .csRise => if s.sel then none else some .csRiseWhileDeselected
    | .beat _ => if s.sel then none else some .beatWhileDeselected
    | .xferAnomaly w =>
      if s.sel then if w = 1 then some .anomalyOfWidthOne else none else some .anomalyWhileDeselected
    | .tick _ => if s.tmrPeriod.isSome && decide (d.now = s.tmrNext) then none else some .tickNotDue
    | .setAmp _ q => if Config.ampInRange q then none else some .ampOutOfRange

/-- The effect of an event that the host may deliver, with NOW in the state (R45). -/
def handle (e : Event) (s : State) : Host.Outcome State Fault Refusal :=
  match e with
  | .csFall => .next s.select
  | .csRise => csRise s
  | .beat b => beat b s
  | .xferAnomaly w => .next (s.anomaly w)
  | .tick d => .next (s.tick d)
  | .setAmp which q => .next (s.writeAmp which q)

/-- The state an event finds: it is off the host's list, and NOW is its moment (R9). -/
def State.arrive (s : State) (t : Nat) (rest : List Delivery) : State := { s with inbox := rest, now := t }

/-- The host is asked for its next events: none of the block's state changes (R16, R140; DESIGN CHOICE, log entry 4). -/
def State.askHost (s : State) : State := { s with inbox := Config.hostEvents s.asked, asked := s.asked + 1 }

/-- One event (R9, R53): refused by the duty it breaks, or its whole effect. -/
def deliver (d : Delivery) (rest : List Delivery) (s : State) : Host.Outcome State Fault Refusal :=
  match s.brokenDuty d with
  | some r => .refused r
  | none => handle d.event (s.arrive d.now rest)

/-- The transaction whose next event runs one access with access word b0 and data byte b1: a read transaction before its
first data beat, or a write transaction with one staged byte before its CS_RISE (R113, R118). -/
def State.placeAccess (s : State) (b0 b1 : Byte) : State :=
  if isReadByte b0 then
    { s with
      sel := true
      byteIdx := 1
      isWrite := false
      regAddr := addrField b0
      stage := s.stage.set 0 b0
      inbox := { now := s.now, event := .beat 0x00#8 } :: s.inbox }
  else
    { s with
      sel := true
      byteIdx := 2
      isWrite := true
      regAddr := addrField b0
      stage := (s.stage.set 0 b0).set 1 b1
      inbox := { now := s.now, event := .csRise } :: s.inbox }

end Sys2Proof.Machine
end

