-- ==== Sys2Proof/Machine/Step.lean ====
section
/-! DEFINITION. One step: the next event the host delivers (00_scope.md R9, 20_memory.md R60), or, where none is at hand,
the block waits while the host chooses. -/
namespace Sys2Proof.Machine

/-- One step of the block. With no event at hand the block waits, and the host chooses the events to come: a run never
ends by itself and is finite or infinite as the host chooses (R16, R140; DESIGN CHOICE, log entry 4). -/
def step (s : State) : Host.Outcome State Fault Refusal :=
  match s.inbox with
  | [] => .next s.askHost
  | d :: rest => deliver d rest s

/-- s with the access word w (and, for a write, its data byte) as the very next access: the host's next event runs
exactly it. A program never comes to run in this block (R18); log entry 13 says how an access comes to run from reset. -/
def State.withFetchWord (s : State) (nbits w : Nat) : State :=
  s.placeAccess (tableByte0 w) (tableByte1 nbits w)

end Sys2Proof.Machine
end

