-- ==== Sys2Proof/Safety.lean ====
section
/-! DEFINITION. The terms the statements are written in: the host's duties, the invariant of a reachable state, the FIFO as
a queue, and what an operation leaves unchanged. -/
namespace Sys2Proof.Machine

/-- The duties (b) to (f) of R46 that an event meets at the moment it is delivered, written from R46 and R45, and not from
the step's own check. -/
def State.DutiesMet (s : State) (d : Delivery) : Prop :=
  s.now ≤ d.now ∧ (∀ p, s.tmrPeriod = some p → d.now ≤ s.tmrNext) ∧
    match d.event with
    | .csFall => s.sel = false
    | .csRise => s.sel = true
    | .beat _ => s.sel = true
    | .xferAnomaly w => s.sel = true ∧ w ≠ 1
    | .tick _ => (∃ p, s.tmrPeriod = some p) ∧ d.now = s.tmrNext
    | .setAmp _ q => 0 ≤ q ∧ q ≤ 1

/-- The host's next event is e at NOW = t, rest comes after it, and the host keeps its duties with it. -/
def State.Offers (s : State) (t : Nat) (e : Event) (rest : List Delivery) : Prop :=
  s.inbox = { now := t, event := e } :: rest ∧ s.DutiesMet { now := t, event := e }

/-- What every state the block can reach satisfies. -/
structure State.Inv (s : State) : Prop where
  /-- the parameters meet the spec's constraints (R5, R103) -/
  par_ok : s.par.ok = true
  /-- FIFO_MEM is in canonical form -/
  mem_wf : s.fifoMem.wf = true
  /-- FIFO_MEM has FIFO_CAP bytes (R31, R58) -/
  mem_in : ∀ c ∈ s.fifoMem, c.1 < s.par.fifoCap
  /-- FIFO_W is an index (R32) -/
  w_lt : s.fifoW < s.par.fifoCap
  /-- FIFO_R is an index (R32) -/
  r_lt : s.fifoR < s.par.fifoCap
  /-- FIFO_CNT is at most FIFO_CAP (R33) -/
  cnt_le : s.fifoCnt ≤ s.par.fifoCap
  /-- R34 (a), with both indices below FIFO_CAP: FIFO_W is FIFO_CNT past FIFO_R -/
  index_eq : (s.fifoR + s.fifoCnt) % s.par.fifoCap = s.fifoW
  /-- a running timer has a positive period (R41) -/
  period_pos : ∀ p, s.tmrPeriod = some p → 0 < p
  /-- a running timer's next tick is not past (R46 (e)) -/
  tick_ahead : ∀ p, s.tmrPeriod = some p → s.now ≤ s.tmrNext
  /-- the amplitudes are in [0.0, 1.0] (R42) -/
  ampA_in : 0 ≤ s.ampA ∧ s.ampA ≤ 1
  /-- the amplitudes are in [0.0, 1.0] (R42) -/
  ampG_in : 0 ≤ s.ampG ∧ s.ampG ≤ 1
  /-- no bus write changes the cell REG[0x76] (R28) -/
  bank_cell : s.regAt Config.regBankSel = Config.resetReg
  /-- nothing writes the cell REG[0x30] (R23) -/
  data_cell : s.regAt Config.fifoData = Config.resetReg

/-- The queued bytes, the oldest first: FIFO_MEM[(FIFO_R + k) mod FIFO_CAP] for k below FIFO_CNT (R34 (b)). -/
def State.queue (s : State) : List Byte :=
  (List.range s.fifoCnt).map fun k => s.fifoMem.read ((s.fifoR + k) % s.par.fifoCap)

/-- The record count as a bus master reads it from the count pair (R22). -/
def State.countPair (s : State) : Nat :=
  (s.regAt Config.fifoCountLo).toNat + 256 * (s.regAt Config.fifoCountHi).toNat

/-- Every register cell but those named reads as before. -/
def State.RegsSameBut (s t : State) (l : List RegAddr) : Prop := ∀ a, a ∉ l → t.regAt a = s.regAt a

/-- The FIFO is as before: indices, fill level and every byte of the ring (R31 to R33). -/
def State.SameFifo (s t : State) : Prop :=
  t.fifoW = s.fifoW ∧ t.fifoR = s.fifoR ∧ t.fifoCnt = s.fifoCnt ∧ ∀ k, t.fifoMem.read k = s.fifoMem.read k

/-- The sample timer is as before (R41). -/
def State.SameTimer (s t : State) : Prop := t.tmrPeriod = s.tmrPeriod ∧ t.tmrNext = s.tmrNext

/-- The amplitudes are as before (R42). -/
def State.SameAmps (s t : State) : Prop := t.ampA = s.ampA ∧ t.ampG = s.ampG

/-- The transaction scratch is as before (R35 to R39). -/
def State.SameScratch (s t : State) : Prop :=
  t.sel = s.sel ∧ t.byteIdx = s.byteIdx ∧ t.isWrite = s.isWrite ∧ t.regAddr = s.regAddr ∧ t.stage = s.stage

/-- The model's own fields other than the outputs are as before: parameters, clock, inputs. -/
def State.SameHost (s t : State) : Prop :=
  t.par = s.par ∧ t.now = s.now ∧ t.inbox = s.inbox ∧ t.asked = s.asked

/-- No output was given: no MISO byte, no diagnostic, no draw. -/
def State.SameOutputs (s t : State) : Prop := t.miso = s.miso ∧ t.diag = s.diag ∧ t.draws = s.draws

/-- One MISO byte v was given, and it was no draw; no diagnostic. -/
def State.Answered (s t : State) (v : Byte) : Prop := t.miso = v :: s.miso ∧ t.diag = s.diag ∧ t.draws = s.draws

end Sys2Proof.Machine
end

