-- ==== Sys2Proof/Certificates/Slice0/Obligations.lean ====
section
/-! DEFINITION. The statements for the provers. Each docstring names the rules it formalises; where a clause rests on a
decision or an inference that the spec marks as its own, or on a choice of the model, the docstring says so. -/

open Sys2Proof Sys2Proof.Machine

/-! ### Encoding -/

/-- R73, the opcode map: each access word selects its class, and the patterns with mask 0xFF go before the generic ones
(R72). A write access carries its data byte v. -/
def Obligations.AccessWordSelectsItsClass : Prop :=
  ∀ aw v : Byte, ∃ (i : Instr) (rest : List Byte), decode .access [aw, v] = .instr i rest ∧
    (aw = 0xAD#8 → i = .rdIntStatus) ∧
    (aw = 0xB0#8 → i = .rdFifoData) ∧
    (aw &&& 0x80#8 = 0x80#8 → aw ≠ 0xAD#8 → aw ≠ 0xB0#8 → i = .rdReg (aw.setWidth 7)) ∧
    (aw = 0x76#8 → i = .wrRegBankSel v) ∧
    (aw = 0x50#8 → i = .wrAccelConfig0 v) ∧
    (aw = 0x30#8 → i = .wrFifoData v) ∧
    (aw &&& 0x80#8 = 0x00#8 → aw ≠ 0x76#8 → aw ≠ 0x50#8 → aw ≠ 0x30#8 → i = .wrReg (aw.setWidth 7) v)

/-- R66, R67, R68, R76: every byte value is a command byte, read or written by bit 7, with the address in bits 6:0. -/
def Obligations.EveryCommandByteDecodes : Prop :=
  ∀ (b : Byte) (rest : List Byte), decode .command (b :: rest) =
    .instr (if b &&& 0x80#8 = 0x80#8 then .rd (b.setWidth 7) else .wr (b.setWidth 7)) rest

/-- Decoding the bytes of a well-formed instruction, in the phase it belongs to, gives it back with every operand and
leaves the bytes after it (R66 to R73). The two bytes of a write access are the model's form (log entry 14). -/
def Obligations.DecodeEncodeRoundTrip : Prop :=
  ∀ (i : Instr) (rest : List Byte), i.wellFormed = true → decode i.phase (encode i ++ rest) = .instr i rest

/-- The other direction: what the decoder answers is well-formed, belongs to the phase, and is encoded by exactly the
bytes it was read from (R72, R73, R76). -/
def Obligations.DecodedBytesAreTheEncoding : Prop :=
  ∀ (p : Phase) (bytes rest : List Byte) (i : Instr), decode p bytes = .instr i rest →
    i.wellFormed = true ∧ i.phase = p ∧ bytes = encode i ++ rest

/-- Words written out bit by bit from R73 and R66 decode to what they stand for. -/
def Obligations.SpecWordsDecode : Prop :=
  decode .access [0b10101101#8] = .instr .rdIntStatus [] ∧
  decode .access [0b10110000#8] = .instr .rdFifoData [] ∧
  decode .access [0b10101110#8] = .instr (.rdReg 0x2E#7) [] ∧
  decode .access [0b01110110#8, 0x01#8] = .instr (.wrRegBankSel 0x01#8) [] ∧
  decode .access [0b01010000#8, 0x06#8] = .instr (.wrAccelConfig0 0x06#8) [] ∧
  decode .access [0b00110000#8, 0x11#8] = .instr (.wrFifoData 0x11#8) [] ∧
  decode .access [0b01001110#8, 0x02#8] = .instr (.wrReg 0x4E#7 0x02#8) [] ∧
  decode .command [0b11001110#8] = .instr (.rd 0x4E#7) [] ∧
  decode .command [0b01001110#8] = .instr (.wr 0x4E#7) []

/-! ### A step runs the decoded instruction -/

/-- Beat 0 (R71, R112): the step is exec of the command byte's instruction, at the state with the event taken off the
host's list and NOW its moment. -/
def Obligations.CommandBeatRunsDecodedCommand : Prop :=
  ∀ (s : State) (now : Nat) (b : Byte) (rest : List Delivery) (i : Instr), s.Offers now (.beat b) rest → s.byteIdx = 0 →
    decode .command [b] = .instr i [] →
    step s = exec i { s with inbox := rest, now := now }

/-- A read data beat (R113): the step is exec of the instruction that the access word {1, REG_ADDR} decodes to, and then
REG_ADDR moves to NextAddr and the beat is counted. -/
def Obligations.ReadBeatRunsDecodedAccess : Prop :=
  ∀ (s : State) (now : Nat) (b : Byte) (rest : List Delivery) (i : Instr), s.Offers now (.beat b) rest → s.byteIdx ≠ 0 →
    s.isWrite = false → decode .access [accessWord true s.regAddr] = .instr i [] →
    ∃ t, exec i { s with inbox := rest, now := now } = .next t ∧
      step s = .next { t with regAddr := s.nextAddr s.regAddr, byteIdx := s.byteIdx + 1 }

/-- A CS_RISE that ends a write transaction (R118): with one staged byte the step is exec of the one decoded write access,
with more it is exec of the two, in address order, the second in the state the first left; with none it deselects.
The addresses are R116's, which rest on the spec's decision D18. -/
def Obligations.CommitRunsDecodedAccesses : Prop :=
  ∀ (s : State) (now : Nat) (rest : List Delivery) (i0 i1 : Instr), s.Offers now .csRise rest → s.isWrite = true →
    decode .access [accessWord false s.startAddr, s.staged 1] = .instr i0 [] →
    decode .access [accessWord false (s.startAddr + 1), s.staged 2] = .instr i1 [] →
    (s.byteIdx = 1 → step s = .next { s with inbox := rest, now := now, sel := false }) ∧
    (s.byteIdx = 2 → step s = exec i0 { s with inbox := rest, now := now, sel := false }) ∧
    (3 ≤ s.byteIdx → ∃ t, exec i0 { s with inbox := rest, now := now, sel := false } = .next t ∧ step s = exec i1 t)

/-- R46, R123: the block has a step for an event exactly when the host keeps its duties with it, it never faults, and
with no event at hand it waits (R16): none of its state changes. Refusing the excluded events is the spec's decision D27;
that a waiting step takes the host's further choice of events from a free sequence is the model's (log entry 4). -/
def Obligations.StepsExactlyWhenDutiesMet : Prop :=
  (∀ (s : State) (d : Delivery) (rest : List Delivery), s.inbox = d :: rest →
    ((∃ t, step s = .next t) ↔ s.DutiesMet d)) ∧
  (∀ (s : State) (f : Fault), step s ≠ .fault f) ∧
  ∀ s : State, s.inbox = [] →
    step s = .next { s with inbox := Config.hostEvents s.asked, asked := s.asked + 1 }

/-! ### The command beat -/

/-- R112: the command beat of RD and of WR. The MISO byte is a free draw (the spec's decision D15): the statement says
that one byte is given, and nothing of its value. -/
def Obligations.CommandBeatMeaning : Prop :=
  ∀ (s : State) (a : RegAddr), s.sel = true → s.byteIdx = 0 →
    (∃ t, exec (.rd a) s = .next t ∧ t.isWrite = false ∧ t.regAddr = a ∧ t.byteIdx = 1 ∧
      t.staged 0 = accessWord true a ∧ t.staged 1 = s.staged 1 ∧ t.staged 2 = s.staged 2 ∧
      (∃ v, t.miso = v :: s.miso) ∧
      t = { s with isWrite := t.isWrite, regAddr := t.regAddr, byteIdx := t.byteIdx, stage := t.stage, miso := t.miso,
                   draws := t.draws }) ∧
    (∃ t, exec (.wr a) s = .next t ∧ t.isWrite = true ∧ t.regAddr = a ∧ t.byteIdx = 1 ∧
      t.staged 0 = accessWord false a ∧ t.staged 1 = s.staged 1 ∧ t.staged 2 = s.staged 2 ∧
      (∃ v, t.miso = v :: s.miso) ∧
      t = { s with isWrite := t.isWrite, regAddr := t.regAddr, byteIdx := t.byteIdx, stage := t.stage, miso := t.miso,
                   draws := t.draws })

/-- R67, R68: what the byte of beat 0 leaves: the direction by bit 7, REG_ADDR and the commit's start address by bits
6:0. -/
def Obligations.CommandByteLatchesDirectionAndAddress : Prop :=
  ∀ (s : State) (now : Nat) (b : Byte) (rest : List Delivery), s.Offers now (.beat b) rest → s.byteIdx = 0 →
    ∃ t, step s = .next t ∧ (t.isWrite = true ↔ b &&& 0x80#8 = 0x00#8) ∧ t.regAddr = b.setWidth 7 ∧
      t.commitAddr 0 = b.setWidth 7 ∧ t.staged 0 = b

/-! ### Read accesses -/

/-- R81, in bank 0: RD_REG gives the cell's byte on MISO and changes nothing else. -/
def Obligations.RdRegMeaning : Prop :=
  ∀ (s : State) (a : RegAddr), s.bank = 0x00#8 → a ≠ 0x2D#7 → a ≠ 0x30#7 →
    exec (.rdReg a) s = .next { s with miso := s.regAt a :: s.miso }

/-- R82, in bank 0: the byte before the clear, the clear in the same step, and 0x00 from a second read. Nothing else
changes. -/
def Obligations.RdIntStatusMeaning : Prop :=
  ∀ s : State, s.bank = 0x00#8 →
    ∃ t u, exec .rdIntStatus s = .next t ∧ exec .rdIntStatus t = .next u ∧
      t.miso = s.regAt 0x2D#7 :: s.miso ∧ t.regAt 0x2D#7 = 0x00#8 ∧ s.RegsSameBut t [0x2D#7] ∧
      t = { s with reg := t.reg, miso := t.miso } ∧
      u.miso = 0x00#8 :: t.miso ∧ u.regAt 0x2D#7 = 0x00#8

/-- R82 (c): in a read burst the clear happens at the beat that reads 0x2D, with the value before it on MISO. -/
def Obligations.ReadBeatClearsIntStatusAtThatBeat : Prop :=
  ∀ (s : State) (now : Nat) (b : Byte) (rest : List Delivery), s.Offers now (.beat b) rest → s.byteIdx ≠ 0 →
    s.isWrite = false → s.bank = 0x00#8 → s.regAddr = 0x2D#7 →
    ∃ t, step s = .next t ∧ t.miso = s.regAt 0x2D#7 :: s.miso ∧ t.regAt 0x2D#7 = 0x00#8 ∧
      s.RegsSameBut t [0x2D#7] ∧ s.SameFifo t ∧ t.bank = s.bank

/-- R83, R93, in bank 0 with bytes queued: the oldest byte goes out on MISO, FIFO_R moves on modulo FIFO_CAP, FIFO_CNT
falls by one, the count pair and the watermark flag are refreshed (R92; that a pop runs the watermark test is the spec's
decision D22). The bound on FIFO_CNT is R33's with R5's largest FIFO_CAP. -/
def Obligations.RdFifoDataPopsOneByte : Prop :=
  ∀ s : State, s.bank = 0x00#8 → 0 < s.fifoCnt → s.fifoCnt ≤ 16 * 65535 →
    ∃ t, exec .rdFifoData s = .next t ∧ t.miso = s.fifoMem.read s.fifoR :: s.miso ∧
      t.fifoR = (s.fifoR + 1) % s.par.fifoCap ∧ t.fifoCnt + 1 = s.fifoCnt ∧
      t.countPair = t.fifoCnt / 16 ∧
      t.regAt 0x2D#7 =
        (if (s.regAt 0x60#7).toNat + 256 * (s.regAt 0x61#7).toNat ≤ t.fifoCnt / 16 then s.regAt 0x2D#7 ||| 0x04#8
          else s.regAt 0x2D#7) ∧
      s.RegsSameBut t [0x2D#7, 0x2E#7, 0x2F#7] ∧
      t = { s with reg := t.reg, fifoR := t.fifoR, fifoCnt := t.fifoCnt, miso := t.miso }

/-- R94, in bank 0 with the FIFO empty: 0x80 on MISO, and no other change. -/
def Obligations.RdFifoDataEmptyGivesSentinel : Prop :=
  ∀ s : State, s.bank = 0x00#8 → s.fifoCnt = 0 → exec .rdFifoData s = .next { s with miso := 0x80#8 :: s.miso }

/-- R80, R57: in any bank but 0 every read access gives 0x00 and has no side effect, 0x2D and 0x30 included. That the
bank check comes before the special behaviour of 0x30 is the spec's decision D20. -/
def Obligations.OtherBankReadsZero : Prop :=
  ∀ (s : State) (aw : Byte) (i : Instr) (rest : List Byte), s.bank ≠ 0x00#8 → aw &&& 0x80#8 = 0x80#8 →
    decode .access [aw] = .instr i rest → exec i s = .next { s with miso := 0x00#8 :: s.miso }

/-- R28: a read of 0x76 gives 0x00 in every bank, never BANK, in every state the block can reach. -/
def Obligations.BankSelectReadsZero : Prop :=
  ∀ s : State, s.Inv → exec (.rdReg 0x76#7) s = .next { s with miso := 0x00#8 :: s.miso }

/-! ### Write accesses -/

/-- R85, in bank 0: WR_REG stores v in the cell and changes nothing else. -/
def Obligations.WrRegMeaning : Prop :=
  ∀ (s : State) (a : RegAddr) (v : Byte), s.bank = 0x00#8 → a ≠ 0x30#7 → a ≠ 0x50#7 → a ≠ 0x76#7 →
    ∃ t, exec (.wrReg a v) s = .next t ∧ t.regAt a = v ∧ s.RegsSameBut t [a] ∧ t = { s with reg := t.reg }

/-- R86, R84: WR_REG_BANK_SEL sets BANK to the full byte in every bank, and changes nothing else; no register cell, REG[0x76]
included, is written. That BANK holds the full byte is the spec's decision D23. -/
def Obligations.WrRegBankSelMeaning : Prop :=
  ∀ (s : State) (v : Byte), ∃ t, exec (.wrRegBankSel v) s = .next t ∧ t.bank = v ∧ s.RegsSameBut t [] ∧
    t = { s with bank := t.bank }

/-- R87, R104, R105, R106, in bank 0, for a code that has a rate: the byte is stored and the timer restarts at NOW with the
period 10^12 div r. The floor and the fresh phase are the spec's decisions D9 and D10. -/
def Obligations.WrAccelConfig0RestartsTimer : Prop :=
  ∀ (s : State) (v : Byte) (r : Nat), s.bank = 0x00#8 → s.par.odrTable[v.toNat % 16]? = some (some r) →
    ∃ t, exec (.wrAccelConfig0 v) s = .next t ∧ t.regAt 0x50#7 = v ∧ s.RegsSameBut t [0x50#7] ∧
      t.tmrPeriod = some (10 ^ 12 / r) ∧ t.tmrNext = s.now + 10 ^ 12 / r ∧
      t = { s with reg := t.reg, tmrPeriod := t.tmrPeriod, tmrNext := t.tmrNext }

/-- R87 (a), in bank 0, for a code without a rate: the byte is stored and the timer keeps its period and phase (the spec's
decision D8). -/
def Obligations.WrAccelConfig0WithoutRateKeepsTimer : Prop :=
  ∀ (s : State) (v : Byte), s.bank = 0x00#8 → s.par.odrTable[v.toNat % 16]? = some none →
    ∃ t, exec (.wrAccelConfig0 v) s = .next t ∧ t.regAt 0x50#7 = v ∧ s.RegsSameBut t [0x50#7] ∧
      t = { s with reg := t.reg }

/-- R103 (a) and (b) on the chip: code 6 gives 1,000,000 ns and code 0 leaves the timer alone, for every ODR table that
meets the spec's constraints. -/
def Obligations.OdrCodeSixAndZero : Prop :=
  ∀ (s : State) (v : Byte), s.par.ok = true → s.bank = 0x00#8 →
    (v &&& 0x0F#8 = 0x06#8 → ∃ t, exec (.wrAccelConfig0 v) s = .next t ∧ t.tmrPeriod = some 1000000 ∧
      t.tmrNext = s.now + 1000000) ∧
    (v &&& 0x0F#8 = 0x00#8 → ∃ t, exec (.wrAccelConfig0 v) s = .next t ∧ s.SameTimer t)

/-- R88: a bus write to FIFO_DATA changes nothing, in any bank. That it is discarded is the spec's decision D19. -/
def Obligations.WrFifoDataMeaning : Prop :=
  ∀ (s : State) (v : Byte), exec (.wrFifoData v) s = .next s

/-- R84, R57: in any bank but 0 every write access is dropped, but one to 0x76, which sets BANK. -/
def Obligations.OtherBankDropsWrites : Prop :=
  ∀ (s : State) (aw v : Byte) (i : Instr) (rest : List Byte), s.bank ≠ 0x00#8 → aw &&& 0x80#8 = 0x00#8 →
    decode .access [aw, v] = .instr i rest →
    exec i s = .next (if aw = 0x76#8 then { s with bank := v } else s)

/-- R118 (b), R86 (b): in a two-byte write from 0x76 the second byte is written under the new BANK: into 0x77 in bank 0,
dropped in any other. -/
def Obligations.BankChangeAppliesToNextByte : Prop :=
  ∀ (s : State) (now : Nat) (rest : List Delivery), s.Offers now .csRise rest → s.isWrite = true → 3 ≤ s.byteIdx →
    s.startAddr = 0x76#7 →
    ∃ t, step s = .next t ∧ t.bank = s.staged 1 ∧
      t.regAt 0x77#7 = (if s.staged 1 = 0x00#8 then s.staged 2 else s.regAt 0x77#7) ∧ s.RegsSameBut t [0x77#7]

/-! ### The FIFO engine -/

/-- R90, the path on which the bytes fit: every byte of buf stands in the ring from FIFO_W on, modulo FIFO_CAP, the other
bytes are as before, FIFO_W and FIFO_CNT move on, and no register cell but the count pair and INT_STATUS changes. -/
def Obligations.PushThatFits : Prop :=
  ∀ (s : State) (buf : List Byte), s.Inv → s.fifoCnt + buf.length ≤ s.par.fifoCap →
    ∃ t, s.push buf = t ∧
      (∀ i (h : i < buf.length), t.fifoMem.read ((s.fifoW + i) % s.par.fifoCap) = buf[i]) ∧
      (∀ k, (∀ i, i < buf.length → (s.fifoW + i) % s.par.fifoCap ≠ k) → t.fifoMem.read k = s.fifoMem.read k) ∧
      t.fifoW = (s.fifoW + buf.length) % s.par.fifoCap ∧ t.fifoCnt = s.fifoCnt + buf.length ∧
      (t.regAt 0x2D#7 &&& 0xFB#8) = (s.regAt 0x2D#7 &&& 0xFB#8) ∧
      s.RegsSameBut t [0x2D#7, 0x2E#7, 0x2F#7] ∧
      t = { s with reg := t.reg, fifoMem := t.fifoMem, fifoW := t.fifoW, fifoCnt := t.fifoCnt }

/-- R91: the overflow path: the bytes are copied and FIFO_W moves on as on the other path, FIFO_R drops the oldest n bytes,
FIFO_CNT is unchanged and FIFO_FULL is set. -/
def Obligations.PushThatOverflows : Prop :=
  ∀ (s : State) (buf : List Byte), s.Inv → buf.length ≤ s.par.fifoCap → s.par.fifoCap < s.fifoCnt + buf.length →
    ∃ t, s.push buf = t ∧
      (∀ i (h : i < buf.length), t.fifoMem.read ((s.fifoW + i) % s.par.fifoCap) = buf[i]) ∧
      (∀ k, (∀ i, i < buf.length → (s.fifoW + i) % s.par.fifoCap ≠ k) → t.fifoMem.read k = s.fifoMem.read k) ∧
      t.fifoW = (s.fifoW + buf.length) % s.par.fifoCap ∧ t.fifoR = (s.fifoR + buf.length) % s.par.fifoCap ∧
      t.fifoCnt = s.fifoCnt ∧ t.countPair = s.fifoCnt / 16 ∧
      (t.regAt 0x2D#7 &&& 0xFB#8) = (s.regAt 0x2D#7 &&& 0xFB#8 ||| 0x02#8) ∧
      s.RegsSameBut t [0x2D#7, 0x2E#7, 0x2F#7] ∧
      t = { s with reg := t.reg, fifoMem := t.fifoMem, fifoW := t.fifoW, fifoR := t.fifoR }

/-- R92: the count refresh: the pair holds FIFO_CNT div 16, little-endian, FIFO_WM is set when that is at or above
WM = le16(REG[0x60], REG[0x61]), never cleared, and nothing else changes. The bound on FIFO_CNT is R33's with R5's
largest FIFO_CAP. -/
def Obligations.UpdateCountMeaning : Prop :=
  ∀ s : State, s.fifoCnt ≤ 16 * 65535 →
    ∃ t, s.updateCount = t ∧
      (t.regAt 0x2E#7).toNat = s.fifoCnt / 16 % 256 ∧ (t.regAt 0x2F#7).toNat = s.fifoCnt / 16 / 256 ∧
      t.regAt 0x2D#7 =
        (if (s.regAt 0x60#7).toNat + 256 * (s.regAt 0x61#7).toNat ≤ s.fifoCnt / 16 then s.regAt 0x2D#7 ||| 0x04#8
          else s.regAt 0x2D#7) ∧
      s.RegsSameBut t [0x2D#7, 0x2E#7, 0x2F#7] ∧ t = { s with reg := t.reg }

/-- R34 (b) for Push: the queue after it is the last FIFO_CNT bytes of the old queue followed by buf, on both paths. -/
def Obligations.PushAppendsToQueue : Prop :=
  ∀ (s : State) (buf : List Byte), s.Inv → buf.length ≤ s.par.fifoCap →
    (s.push buf).queue =
      (s.queue ++ buf).drop (if s.par.fifoCap < s.fifoCnt + buf.length then buf.length else 0)

/-- The ring is a bounded queue of bytes (R34, R90 to R94): in every step from a reachable state the queue is unchanged, or
its oldest byte leaves on MISO in a read beat at FIFO_DATA in bank 0, or a tick appends a record of 16 bytes, with the
oldest 16 bytes dropped when they do not fit. That a read of 0x30 pops in bank 0 only is R80 with the spec's decision D20;
the redirect of the read to the FIFO is R83. -/
def Obligations.StepRefinesByteQueue : Prop :=
  ∀ s t : State, s.Inv → step s = .next t →
    t.queue = s.queue ∨
    (∃ v now b rest, s.inbox = { now := now, event := .beat b } :: rest ∧ s.regAddr = 0x30#7 ∧ s.bank = 0x00#8 ∧
      s.isWrite = false ∧ s.byteIdx ≠ 0 ∧ s.queue = v :: t.queue ∧ t.miso = v :: s.miso) ∨
    (∃ rec now d rest, s.inbox = { now := now, event := .tick d } :: rest ∧ rec.length = 16 ∧
      (s.regAt 0x4E#7).getLsbD 1 = true ∧
      t.queue = (s.queue ++ rec).drop (if s.par.fifoCap < s.fifoCnt + 16 then 16 else 0))

/-- R22, R95: a step that changes the fill level, or drops bytes, leaves the true record count in the count pair, and it is
at most FIFO_CAP div 16. -/
def Obligations.CountPairFollowsFifo : Prop :=
  ∀ s t : State, s.Inv → step s = .next t → (t.fifoCnt ≠ s.fifoCnt ∨ t.fifoR ≠ s.fifoR) →
    t.countPair = t.fifoCnt / 16 ∧ t.countPair ≤ t.par.fifoCap / 16

/-! ### The sample generator -/

/-- R75, R99 to R102: the 16 bytes of a record. The timestamp's truncation is the spec's decision D12 and the law of the
zero amplitude its decision D14; an axis value at another amplitude is the tick's free draw. -/
def Obligations.RecordLayout : Prop :=
  ∀ (s : State) (d : AxisDraws), ∃ ax ay az gx gy gz ts : Half,
    s.makeRecord d =
      [0x68#8, ax.setWidth 8, (ax >>> 8).setWidth 8, ay.setWidth 8, (ay >>> 8).setWidth 8, az.setWidth 8,
        (az >>> 8).setWidth 8, gx.setWidth 8, (gx >>> 8).setWidth 8, gy.setWidth 8, (gy >>> 8).setWidth 8, gz.setWidth 8,
        (gz >>> 8).setWidth 8, s.par.tempPlaceholder, ts.setWidth 8, (ts >>> 8).setWidth 8] ∧
    ts.toNat = s.now / 1000 % 65536 ∧
    (s.ampA = 0 → ax = 0 ∧ ay = 0 ∧ az = 0) ∧ (s.ampG = 0 → gx = 0 ∧ gy = 0 ∧ gz = 0) ∧
    (s.ampA ≠ 0 → ax = d.ax ∧ ay = d.ay ∧ az = d.az) ∧ (s.ampG ≠ 0 → gx = d.gx ∧ gy = d.gy ∧ gz = d.gz)

/-- R97, R98: a tick while SAMPLE_EN is 0 re-arms the timer and does nothing else, whatever BANK holds. -/
def Obligations.DisabledTickOnlyRearms : Prop :=
  ∀ (s : State) (now p : Nat) (d : AxisDraws) (rest : List Delivery), s.Offers now (.tick d) rest →
    s.tmrPeriod = some p → (s.regAt 0x4E#7).getLsbD 1 = false →
    step s = .next { s with inbox := rest, now := now, tmrNext := s.tmrNext + p }

/-- R97, R99: a tick while SAMPLE_EN is 1 re-arms the timer and appends the record made at that moment to the queue, the
oldest 16 bytes dropped when it does not fit; FIFO_FULL is set exactly then, and FIFO_WM when the count reaches WM;
registers other than INT_STATUS and the count pair, BANK, the transaction scratch and the amplitudes are as before, in
every bank (that BANK does not matter is the spec's decision D21). -/
def Obligations.EnabledTickQueuesOneRecord : Prop :=
  ∀ (s : State) (now p : Nat) (d : AxisDraws) (rest : List Delivery), s.Inv → s.Offers now (.tick d) rest →
    s.tmrPeriod = some p → (s.regAt 0x4E#7).getLsbD 1 = true →
    ∃ t, step s = .next t ∧ t.tmrPeriod = some p ∧ t.tmrNext = s.tmrNext + p ∧
      t.queue = (s.queue ++ State.makeRecord { s with now := now } d).drop
        (if s.par.fifoCap < s.fifoCnt + 16 then 16 else 0) ∧
      t.countPair = t.fifoCnt / 16 ∧
      t.regAt 0x2D#7 =
        (s.regAt 0x2D#7 ||| (if s.par.fifoCap < s.fifoCnt + 16 then 0x02#8 else 0x00#8)
          ||| (if (s.regAt 0x60#7).toNat + 256 * (s.regAt 0x61#7).toNat ≤ t.fifoCnt / 16 then 0x04#8 else 0x00#8)) ∧
      s.RegsSameBut t [0x2D#7, 0x2E#7, 0x2F#7] ∧ t.bank = s.bank ∧ s.SameScratch t ∧ s.SameAmps t ∧ s.SameOutputs t

/-- R108: SET_AMP writes the amplitude it names and nothing else. -/
def Obligations.SetAmpWritesOneAmplitude : Prop :=
  ∀ (s : State) (now : Nat) (q : Rat) (rest : List Delivery),
    (s.Offers now (.setAmp .accel q) rest → step s = .next { s with inbox := rest, now := now, ampA := q }) ∧
    (s.Offers now (.setAmp .gyro q) rest → step s = .next { s with inbox := rest, now := now, ampG := q })

/-! ### The transaction state machine -/

/-- R111: CS_FALL selects the block and sets BYTE_IDX to 0, and changes nothing else. -/
def Obligations.CsFallStartsTransaction : Prop :=
  ∀ (s : State) (now : Nat) (rest : List Delivery), s.Offers now .csFall rest →
    step s = .next { s with inbox := rest, now := now, sel := true, byteIdx := 0 }

/-- R114: a write data beat within the staging capacity stages its byte, counts itself and gives 0x00; no register,
FIFO or timer state changes. -/
def Obligations.StagedWriteBeat : Prop :=
  ∀ (s : State) (now : Nat) (b : Byte) (rest : List Delivery), s.Offers now (.beat b) rest → s.isWrite = true →
    1 ≤ s.byteIdx → s.byteIdx ≤ 2 →
    ∃ t, step s = .next t ∧ t.staged s.byteIdx = b ∧ (∀ j, j ≠ s.byteIdx → t.staged j = s.staged j) ∧
      t = { s with inbox := rest, now := now, stage := t.stage, byteIdx := s.byteIdx + 1, miso := 0x00#8 :: s.miso }

/-- R117: a write data beat beyond the staging capacity is reported and dropped and gives 0x00; only BYTE_IDX changes (the
spec's decision D25). -/
def Obligations.ExcessWriteBeat : Prop :=
  ∀ (s : State) (now : Nat) (b : Byte) (rest : List Delivery), s.Offers now (.beat b) rest → s.isWrite = true →
    2 < s.byteIdx →
    step s = .next { s with inbox := rest, now := now, byteIdx := s.byteIdx + 1, miso := 0x00#8 :: s.miso,
                            diag := .excessWriteByte :: s.diag }

/-- R119: the CS_RISE of a read transaction, or of one with no command byte, deselects and commits nothing. -/
def Obligations.CsRiseWithoutCommit : Prop :=
  ∀ (s : State) (now : Nat) (rest : List Delivery), s.Offers now .csRise rest → (s.byteIdx = 0 ∨ s.isWrite = false) →
    step s = .next { s with inbox := rest, now := now, sel := false }

/-- R120: an exchange of width w ≠ 1 gives w filler bytes and a diagnostic and changes nothing else. The fillers are free
draws and the beat is not counted (the spec's decision D24). -/
def Obligations.AnomalyChangesNoState : Prop :=
  ∀ (s : State) (now w : Nat) (rest : List Delivery), s.Offers now (.xferAnomaly w) rest →
    ∃ out : List Byte, out.length = w ∧
      step s = .next { s with inbox := rest, now := now, miso := out ++ s.miso, diag := .badExchangeWidth :: s.diag,
                              draws := s.draws + w }

/-- R115, with the wrap of the spec's decision D17: a read data beat moves REG_ADDR on by one modulo 128, but stays when
the address the pin rule looks at is 0x30 (PIN_RULE is the spec's decision D16), and counts itself. -/
def Obligations.ReadBurstAddress : Prop :=
  ∀ (s : State) (now : Nat) (b : Byte) (rest : List Delivery), s.Offers now (.beat b) rest → s.byteIdx ≠ 0 →
    s.isWrite = false →
    ∃ t, step s = .next t ∧ t.byteIdx = s.byteIdx + 1 ∧ t.isWrite = false ∧ t.stage = s.stage ∧
      (s.par.pinRule = .current →
        t.regAddr.toNat = (if s.regAddr = 0x30#7 then 0x30 else (s.regAddr.toNat + 1) % 128)) ∧
      (s.par.pinRule = .start →
        t.regAddr.toNat = (if (s.staged 0).toNat % 128 = 0x30 then s.regAddr.toNat else (s.regAddr.toNat + 1) % 128))

/-- R116: the i-th staged byte goes to the start address plus i, modulo 128, with no pin at 0x30 (the spec's decision
D18). -/
def Obligations.CommitAddressWraps : Prop :=
  ∀ (s : State) (i : Nat), (s.commitAddr i).toNat = ((s.staged 0).toNat % 128 + i) % 128

/-- R122: a transaction starts afresh: two idle states that differ only in the scratch an earlier transaction left agree,
after CS_FALL and the command beat, in everything but STAGE[1] and STAGE[2]. MISO is among what agrees: that the two
command beats answer the same byte is the model's choice, because `Config.freeByte` depends on the count of draws alone
(log entry 3); the spec leaves that byte free (its decision D15), so this clause is no part of R122. -/
def Obligations.FreshTransactionForgetsScratch : Prop :=
  ∀ (s t u : State) (k : Nat) (w : Bool) (a : RegAddr) (stg : Vector Byte 3) (now now' : Nat) (b : Byte)
    (rest : List Delivery),
    s.inbox = { now := now, event := .csFall } :: { now := now', event := .beat b } :: rest →
    Host.Core.run core 2 s = .next t →
    Host.Core.run core 2 { s with byteIdx := k, isWrite := w, regAddr := a, stage := stg } = .next u →
    u = { t with stage := u.stage } ∧ u.staged 0 = t.staged 0

/-- L1.1 of 95_test_vectors.md, from R81, R85, R113 and R118: a whole write transaction of one byte to a plain address, and
then a whole read transaction of it, give the written byte on MISO, at any times the host's duties allow. -/
def Obligations.WriteTransactionThenReadBack : Prop :=
  ∀ (s : State) (τ : Nat → Nat) (a : RegAddr) (v x : Byte) (rest : List Delivery),
    s.sel = false → s.bank = 0x00#8 → a ≠ 0x2D#7 → a ≠ 0x30#7 → a ≠ 0x50#7 → a ≠ 0x76#7 →
    s.now ≤ τ 0 → (∀ i, τ i ≤ τ (i + 1)) → (∀ p, s.tmrPeriod = some p → τ 7 ≤ s.tmrNext) →
    s.inbox = { now := τ 0, event := .csFall } :: { now := τ 1, event := .beat (accessWord false a) } ::
      { now := τ 2, event := .beat v } :: { now := τ 3, event := .csRise } ::
      { now := τ 4, event := .csFall } :: { now := τ 5, event := .beat (accessWord true a) } ::
      { now := τ 6, event := .beat x } :: { now := τ 7, event := .csRise } :: rest →
    ∃ t f g, Host.Core.run core 8 s = .next t ∧ t.miso = v :: g :: 0x00#8 :: f :: s.miso ∧ t.regAt a = v ∧
      s.RegsSameBut t [a] ∧ s.SameFifo t ∧ s.SameTimer t ∧ t.sel = false ∧ t.inbox = rest

/-! ### The whole machine -/

/-- Every step keeps the invariant. -/
def Obligations.StepKeepsInvariant : Prop :=
  ∀ s t : State, s.Inv → step s = .next t → t.Inv

/-- The state after reset satisfies the invariant, for every value of the OPEN parameters (R5, R41, R42, R103). -/
def Obligations.ResetMeetsInvariant : Prop := State.reset.Inv

/-- R139: what reset leaves; R140: the block waits, in Idle and in bank 0, for the first host event: a step only asks the
host for it (log entry 4). Every value is the spec's decision (D1 to D4);
the contents of FIFO_MEM and STAGE, which the spec leaves unconstrained, are the model's choice (log entries 1 and 7)
and are not stated. -/
def Obligations.ResetValues : Prop :=
  (∀ a : RegAddr, State.reset.regAt a = 0x00#8) ∧ State.reset.bank = 0x00#8 ∧ State.reset.fifoW = 0 ∧
  State.reset.fifoR = 0 ∧ State.reset.fifoCnt = 0 ∧ State.reset.sel = false ∧ State.reset.byteIdx = 0 ∧
  State.reset.isWrite = false ∧ State.reset.regAddr = 0x00#7 ∧ State.reset.queue = [] ∧
  step State.reset = .next { State.reset with inbox := Config.hostEvents 0, asked := 1 }

/-- R131: a flag that is set stays set until a bus read of INT_STATUS in bank 0 returns the byte and clears all of it, or a bus
write of INT_STATUS in bank 0 stores a byte without it. -/
def Obligations.FlagsStayUntilReadOrWritten : Prop :=
  ∀ (s t : State) (k : Nat), (k = 1 ∨ k = 2) → step s = .next t → (s.regAt 0x2D#7).getLsbD k = true →
    (t.regAt 0x2D#7).getLsbD k = false →
    s.bank = 0x00#8 ∧
    ((∃ now b rest, s.inbox = { now := now, event := .beat b } :: rest ∧ s.byteIdx ≠ 0 ∧ s.isWrite = false ∧
        s.regAddr = 0x2D#7 ∧ t.miso = s.regAt 0x2D#7 :: s.miso ∧ t.regAt 0x2D#7 = 0x00#8) ∨
     (∃ now rest i, s.inbox = { now := now, event := .csRise } :: rest ∧ s.isWrite = true ∧ i < 2 ∧ i + 1 < s.byteIdx ∧
        s.commitAddr i = 0x2D#7 ∧ t.regAt 0x2D#7 = s.staged (1 + i)))

/-- R30: only a bus write to 0x76, committed by CS_RISE, changes BANK, and it stores the staged byte. -/
def Obligations.BankChangedOnlyByBankSelect : Prop :=
  ∀ s t : State, step s = .next t → t.bank ≠ s.bank →
    ∃ now rest i, s.inbox = { now := now, event := .csRise } :: rest ∧ s.isWrite = true ∧ i < 2 ∧ i + 1 < s.byteIdx ∧
      s.commitAddr i = 0x76#7 ∧ t.bank = s.staged (1 + i)

/-- R20, R29, R61, R84: a register cell other than INT_STATUS and the count pair changes only when a CS_RISE commits a staged
byte to it, and it then holds that byte; 0x30 and 0x76 never change. -/
def Obligations.PlainCellChangedOnlyByCommit : Prop :=
  ∀ (s t : State) (a : RegAddr), step s = .next t → a ≠ 0x2D#7 → a ≠ 0x2E#7 → a ≠ 0x2F#7 → t.regAt a ≠ s.regAt a →
    a ≠ 0x30#7 ∧ a ≠ 0x76#7 ∧
    ∃ now rest i, s.inbox = { now := now, event := .csRise } :: rest ∧ s.isWrite = true ∧ i < 2 ∧ i + 1 < s.byteIdx ∧
      s.commitAddr i = a ∧ t.regAt a = s.staged (1 + i)

/-- R41, R107: only a tick and the commit of a byte to 0x50, in bank 0 and with a code that has a rate, change the timer. -/
def Obligations.TimerChangedOnlyByTickOrRestart : Prop :=
  ∀ s t : State, step s = .next t → ¬ s.SameTimer t →
    (∃ d rest, s.inbox = { now := s.tmrNext, event := .tick d } :: rest ∧ t.tmrPeriod = s.tmrPeriod) ∨
    (∃ now rest i r, s.inbox = { now := now, event := .csRise } :: rest ∧ s.isWrite = true ∧ i < 2 ∧ i + 1 < s.byteIdx ∧
      s.commitAddr i = 0x50#7 ∧ s.bank = 0x00#8 ∧
      s.par.odrTable[(s.staged (1 + i)).toNat % 16]? = some (some r) ∧
      t.tmrPeriod = some (10 ^ 12 / r) ∧ t.tmrNext = now + 10 ^ 12 / r)

/-- R42: only SET_AMP changes an amplitude. -/
def Obligations.AmplitudesChangedOnlyBySetAmp : Prop :=
  ∀ s t : State, step s = .next t → ¬ s.SameAmps t →
    ∃ now which q rest, s.inbox = { now := now, event := .setAmp which q } :: rest

/-- R61, R142: no beat of a write transaction after its command beat changes a register cell, BANK, the FIFO, the timer or an
amplitude. -/
def Obligations.WriteBeatsTouchScratchOnly : Prop :=
  ∀ (s t : State) (now : Nat) (b : Byte) (rest : List Delivery),
    s.inbox = { now := now, event := .beat b } :: rest → s.isWrite = true → step s = .next t →
    s.byteIdx ≠ 0 →
    s.RegsSameBut t [] ∧ t.bank = s.bank ∧ s.SameFifo t ∧ s.SameTimer t ∧ s.SameAmps t ∧ t.sel = s.sel ∧
      t.isWrite = s.isWrite ∧ t.regAddr = s.regAddr ∧ t.staged 0 = s.staged 0 ∧ t.miso = 0x00#8 :: s.miso

/-- R121: a CS left asserted parks the block: only CS_RISE deselects it, and only CS_FALL selects it. -/
def Obligations.OnlyChipSelectEdgesChangeSel : Prop :=
  ∀ s t : State, step s = .next t → t.sel ≠ s.sel →
    ∃ now rest, (s.inbox = { now := now, event := .csRise } :: rest ∧ s.sel = true) ∨
      (s.inbox = { now := now, event := .csFall } :: rest ∧ s.sel = false)

/-- R23: the cell REG[0x30] cannot be observed: a step does the same, byte for byte on MISO, whatever it holds, and leaves
it alone. That a bus write of 0x30 is discarded is the spec's decision D19. That the free bytes of the two steps agree, and
what the host chooses when it is asked, is the model's choice (log entries 3 and 4), and no part of R23. -/
def Obligations.FifoDataCellUnobservable : Prop :=
  ∀ (s : State) (v : Byte),
    step (s.writeReg 0x30#7 v) = andThen (step s) (fun t => .next (t.writeReg 0x30#7 v))

/-! ### Runs without end -/

/-- R60, R9: every event reads the state that the earlier events left and nothing else. What the host delivers after an
event changes nothing of what the event does. -/
def Obligations.EventReadsOnlyTheStateBefore : Prop :=
  ∀ (s t : State) (d : Delivery) (rest rest' : List Delivery), s.inbox = d :: rest → step s = .next t →
    step { s with inbox := d :: rest' } = .next { t with inbox := rest' }

/-- R16, R60: in a run the host's events are taken one by one and in the host's order, and none is lost: the events of the
inbox, and then, without end, the events that the host chooses each time it is asked. Which steps deliver and which ask is
the model's (log entry 4). -/
def Obligations.EventsTakenInHostOrder : Prop :=
  ∀ (s t : State) (k : Nat), Host.Core.run core k s = .next t →
    ∃ (asks : Nat) (taken : List Delivery), t.asked = s.asked + asks ∧ taken.length + asks = k ∧
      s.inbox ++ (List.range asks).flatMap (fun i => Config.hostEvents (s.asked + i)) = taken ++ t.inbox

/-- R16, R123: an infinite sequence f of events, each of which meets the host's duties (R46) in the state the events before
it leave, never ends the run: for every n the first n events take n steps, and after them the block stands at a quiescent
point. That an event the duties exclude has no step is the spec's decision D27. -/
def Obligations.InfiniteEventSequenceNeverEndsRun : Prop :=
  ∀ (s : State) (f : Nat → Delivery),
    (∀ n t, Host.Core.run core n { s with inbox := (List.range (n + 1)).map f } = .next t → t.DutiesMet (f n)) →
    ∀ n, ∃ t, Host.Core.run core n { s with inbox := (List.range n).map f } = .next t ∧ t.inbox = [] ∧
      t.asked = s.asked
end

