-- ==== Sys2Proof/Laws/Memory.lean ====
section
/-! SUPPORT. FIFO_MEM's canonical form is kept by every memory operation, and a read gives what the last write put there. -/
namespace Sys2Proof.Machine

/-- Every listed index is at least the bound of the canonical form. -/
theorem Memory.wfFrom_le {m : Memory} {lo : Nat} (h : m.wfFrom lo = true) : ∀ c ∈ m, lo ≤ c.1 := by
  induction m generalizing lo with
  | nil => simp
  | cons c rest ih =>
    obtain ⟨k, x⟩ := c
    simp only [Memory.wfFrom, Bool.and_eq_true, decide_eq_true_eq] at h
    intro c hc
    rcases List.mem_cons.1 hc with rfl | hc
    · exact h.1.1
    · exact le_trans (by omega) (ih h.2 c hc)

/-- A smaller bound does as well. -/
theorem Memory.wfFrom_mono {m : Memory} {lo lo' : Nat} (h : m.wfFrom lo = true) (hl : lo' ≤ lo) :
    m.wfFrom lo' = true := by
  cases m with
  | nil => rfl
  | cons c rest =>
    simp only [Memory.wfFrom, Bool.and_eq_true, decide_eq_true_eq] at h ⊢
    exact ⟨⟨le_trans hl h.1.1, h.1.2⟩, h.2⟩

/-- Below the bound nothing is listed. -/
theorem Memory.read_of_lt {m : Memory} {lo a : Nat} (h : m.wfFrom lo = true) (ha : a < lo) :
    m.read a = Config.fifoMemReset := by
  induction m generalizing lo with
  | nil => rfl
  | cons c rest ih =>
    obtain ⟨k, x⟩ := c
    simp only [Memory.wfFrom, Bool.and_eq_true, decide_eq_true_eq] at h
    have : k ≠ a := by omega
    simp only [Memory.read, this, if_false]
    exact ih h.2 (by omega)

theorem Memory.write_wfFrom {m : Memory} {lo a : Nat} (v : Byte) (h : m.wfFrom lo = true) (ha : lo ≤ a) :
    (m.write a v).wfFrom lo = true := by
  induction m generalizing lo with
  | nil => by_cases hv : v = Config.fifoMemReset <;> simp [Memory.write, Memory.wfFrom, hv, ha]
  | cons c rest ih =>
    obtain ⟨k, x⟩ := c
    simp only [Memory.wfFrom, Bool.and_eq_true, decide_eq_true_eq] at h
    by_cases hlt : a < k
    · by_cases hv : v = Config.fifoMemReset <;> simp only [Memory.write, hlt, hv, if_true, if_false]
      · simpa [Memory.wfFrom] using h
      · simp only [Memory.wfFrom, Bool.and_eq_true, decide_eq_true_eq]
        exact ⟨⟨ha, by simpa using hv⟩, ⟨by omega, h.1.2⟩, h.2⟩
    · by_cases heq : a = k
      · subst heq
        by_cases hv : v = Config.fifoMemReset <;> simp only [Memory.write, lt_irrefl, hv, if_true, if_false]
        · exact Memory.wfFrom_mono h.2 (by omega)
        · simp only [Memory.wfFrom, Bool.and_eq_true, decide_eq_true_eq]
          exact ⟨⟨ha, by simpa using hv⟩, h.2⟩
      · simp only [Memory.write, hlt, heq, if_false, Memory.wfFrom, Bool.and_eq_true, decide_eq_true_eq]
        exact ⟨h.1, ih h.2 (by omega)⟩

/-- A write keeps the canonical form. -/
theorem Memory.write_wf {m : Memory} (a : Nat) (v : Byte) (h : m.wf = true) : (m.write a v).wf = true :=
  Memory.write_wfFrom v h (Nat.zero_le a)

theorem Memory.read_write_from {m : Memory} {lo : Nat} (a b : Nat) (v : Byte) (h : m.wfFrom lo = true) :
    (m.write a v).read b = if b = a then v else m.read b := by
  induction m generalizing lo with
  | nil =>
    rcases eq_or_ne b a with rfl | hb
    · by_cases hv : v = Config.fifoMemReset <;> simp [Memory.write, Memory.read, hv]
    · by_cases hv : v = Config.fifoMemReset <;> simp [Memory.write, Memory.read, hv, hb, Ne.symm hb]
  | cons c rest ih =>
    obtain ⟨k, x⟩ := c
    have h' := h
    simp only [Memory.wfFrom, Bool.and_eq_true, decide_eq_true_eq] at h'
    by_cases hlt : a < k
    · have hread : Memory.read ((k, x) :: rest) a = Config.fifoMemReset := by
        refine Memory.read_of_lt (lo := a + 1) ?_ (by omega)
        simp only [Memory.wfFrom, Bool.and_eq_true, decide_eq_true_eq]
        exact ⟨⟨by omega, h'.1.2⟩, h'.2⟩
      by_cases hv : v = Config.fifoMemReset
      · simp only [Memory.write, hlt, hv, if_true]
        by_cases hb : b = a
        · subst hb; simpa using hread
        · simp [hb]
      · simp only [Memory.write, hlt, hv, if_true, if_false]
        by_cases hb : b = a
        · simp [Memory.read, hb]
        · simp [Memory.read, hb, Ne.symm hb]
    · by_cases heq : a = k
      · subst heq
        by_cases hv : v = Config.fifoMemReset <;> simp only [Memory.write, lt_irrefl, hv, if_true, if_false]
        · by_cases hb : b = a
          · subst hb; simpa using Memory.read_of_lt h'.2 (Nat.lt_succ_self b)
          · simp [Memory.read, hb, Ne.symm hb]
        · by_cases hb : b = a
          · simp [Memory.read, hb]
          · simp [Memory.read, hb, Ne.symm hb]
      · simp only [Memory.write, hlt, heq, if_false, Memory.read]
        by_cases hk : k = b
        · subst hk
          have : ¬ k = a := fun e => heq e.symm
          simp [this]
        · simp only [hk, if_false]
          exact ih h'.2

/-- A read after a write: the value written at that index, the old byte everywhere else. -/
theorem Memory.read_write {m : Memory} (a b : Nat) (v : Byte) (h : m.wf = true) :
    (m.write a v).read b = if b = a then v else m.read b :=
  Memory.read_write_from a b v h

/-- A write lists no index but its own. -/
theorem Memory.mem_write {m : Memory} {a : Nat} {v : Byte} {c : Host.Cell} (h : c ∈ m.write a v) :
    c ∈ m ∨ c.1 = a := by
  induction m with
  | nil =>
    by_cases hv : v = Config.fifoMemReset <;> simp [Memory.write, hv] at h
    exact Or.inr (by simp [h])
  | cons d rest ih =>
    obtain ⟨k, x⟩ := d
    by_cases hlt : a < k
    · by_cases hv : v = Config.fifoMemReset <;> simp only [Memory.write, hlt, hv, if_true, if_false] at h
      · exact Or.inl h
      · rcases List.mem_cons.1 h with rfl | h
        · exact Or.inr rfl
        · exact Or.inl h
    · by_cases heq : a = k
      · subst heq
        by_cases hv : v = Config.fifoMemReset <;> simp only [Memory.write, lt_irrefl, hv, if_true, if_false] at h
        · exact Or.inl (List.mem_cons_of_mem _ h)
        · rcases List.mem_cons.1 h with rfl | h
          · exact Or.inr rfl
          · exact Or.inl (List.mem_cons_of_mem _ h)
      · simp only [Memory.write, hlt, heq, if_false] at h
        rcases List.mem_cons.1 h with rfl | h
        · exact Or.inl (List.mem_cons_self ..)
        · exact (ih h).imp (List.mem_cons_of_mem _) id

/-- Reset memory is in canonical form. -/
theorem Memory.reset_wf : State.reset.fifoMem.wf = true := rfl

end Sys2Proof.Machine
end

