-- ==== Sys2Proof/Laws/State.lean ====
section
/-! SUPPORT. What each update of the state does to each field: one lemma per field per update, so that no proof unfolds a
record update. -/
namespace Sys2Proof.Machine

variable (s : State)

@[simp] theorem State.writeReg_reg (a : RegAddr) (v : Byte) : (s.writeReg a v).reg = s.reg.set a.toNat v (by have := a.isLt; omega) := rfl
@[simp] theorem State.writeReg_bank (a : RegAddr) (v : Byte) : (s.writeReg a v).bank = s.bank := rfl
@[simp] theorem State.writeReg_fifoMem (a : RegAddr) (v : Byte) : (s.writeReg a v).fifoMem = s.fifoMem := rfl
@[simp] theorem State.writeReg_fifoW (a : RegAddr) (v : Byte) : (s.writeReg a v).fifoW = s.fifoW := rfl
@[simp] theorem State.writeReg_fifoR (a : RegAddr) (v : Byte) : (s.writeReg a v).fifoR = s.fifoR := rfl
@[simp] theorem State.writeReg_fifoCnt (a : RegAddr) (v : Byte) : (s.writeReg a v).fifoCnt = s.fifoCnt := rfl
@[simp] theorem State.writeReg_sel (a : RegAddr) (v : Byte) : (s.writeReg a v).sel = s.sel := rfl
@[simp] theorem State.writeReg_byteIdx (a : RegAddr) (v : Byte) : (s.writeReg a v).byteIdx = s.byteIdx := rfl
@[simp] theorem State.writeReg_isWrite (a : RegAddr) (v : Byte) : (s.writeReg a v).isWrite = s.isWrite := rfl
@[simp] theorem State.writeReg_regAddr (a : RegAddr) (v : Byte) : (s.writeReg a v).regAddr = s.regAddr := rfl
@[simp] theorem State.writeReg_stage (a : RegAddr) (v : Byte) : (s.writeReg a v).stage = s.stage := rfl
@[simp] theorem State.writeReg_tmrPeriod (a : RegAddr) (v : Byte) : (s.writeReg a v).tmrPeriod = s.tmrPeriod := rfl
@[simp] theorem State.writeReg_tmrNext (a : RegAddr) (v : Byte) : (s.writeReg a v).tmrNext = s.tmrNext := rfl
@[simp] theorem State.writeReg_ampA (a : RegAddr) (v : Byte) : (s.writeReg a v).ampA = s.ampA := rfl
@[simp] theorem State.writeReg_ampG (a : RegAddr) (v : Byte) : (s.writeReg a v).ampG = s.ampG := rfl
@[simp] theorem State.writeReg_par (a : RegAddr) (v : Byte) : (s.writeReg a v).par = s.par := rfl
@[simp] theorem State.writeReg_now (a : RegAddr) (v : Byte) : (s.writeReg a v).now = s.now := rfl
@[simp] theorem State.writeReg_inbox (a : RegAddr) (v : Byte) : (s.writeReg a v).inbox = s.inbox := rfl
@[simp] theorem State.writeReg_asked (a : RegAddr) (v : Byte) : (s.writeReg a v).asked = s.asked := rfl
@[simp] theorem State.writeReg_miso (a : RegAddr) (v : Byte) : (s.writeReg a v).miso = s.miso := rfl
@[simp] theorem State.writeReg_diag (a : RegAddr) (v : Byte) : (s.writeReg a v).diag = s.diag := rfl
@[simp] theorem State.writeReg_draws (a : RegAddr) (v : Byte) : (s.writeReg a v).draws = s.draws := rfl

@[simp] theorem State.setBank_reg (v : Byte) : (s.setBank v).reg = s.reg := rfl
@[simp] theorem State.setBank_bank (v : Byte) : (s.setBank v).bank = v := rfl
@[simp] theorem State.setBank_fifoMem (v : Byte) : (s.setBank v).fifoMem = s.fifoMem := rfl
@[simp] theorem State.setBank_fifoW (v : Byte) : (s.setBank v).fifoW = s.fifoW := rfl
@[simp] theorem State.setBank_fifoR (v : Byte) : (s.setBank v).fifoR = s.fifoR := rfl
@[simp] theorem State.setBank_fifoCnt (v : Byte) : (s.setBank v).fifoCnt = s.fifoCnt := rfl
@[simp] theorem State.setBank_sel (v : Byte) : (s.setBank v).sel = s.sel := rfl
@[simp] theorem State.setBank_byteIdx (v : Byte) : (s.setBank v).byteIdx = s.byteIdx := rfl
@[simp] theorem State.setBank_isWrite (v : Byte) : (s.setBank v).isWrite = s.isWrite := rfl
@[simp] theorem State.setBank_regAddr (v : Byte) : (s.setBank v).regAddr = s.regAddr := rfl
@[simp] theorem State.setBank_stage (v : Byte) : (s.setBank v).stage = s.stage := rfl
@[simp] theorem State.setBank_tmrPeriod (v : Byte) : (s.setBank v).tmrPeriod = s.tmrPeriod := rfl
@[simp] theorem State.setBank_tmrNext (v : Byte) : (s.setBank v).tmrNext = s.tmrNext := rfl
@[simp] theorem State.setBank_ampA (v : Byte) : (s.setBank v).ampA = s.ampA := rfl
@[simp] theorem State.setBank_ampG (v : Byte) : (s.setBank v).ampG = s.ampG := rfl
@[simp] theorem State.setBank_par (v : Byte) : (s.setBank v).par = s.par := rfl
@[simp] theorem State.setBank_now (v : Byte) : (s.setBank v).now = s.now := rfl
@[simp] theorem State.setBank_inbox (v : Byte) : (s.setBank v).inbox = s.inbox := rfl
@[simp] theorem State.setBank_asked (v : Byte) : (s.setBank v).asked = s.asked := rfl
@[simp] theorem State.setBank_miso (v : Byte) : (s.setBank v).miso = s.miso := rfl
@[simp] theorem State.setBank_diag (v : Byte) : (s.setBank v).diag = s.diag := rfl
@[simp] theorem State.setBank_draws (v : Byte) : (s.setBank v).draws = s.draws := rfl

@[simp] theorem State.setFifo_reg (m : Memory) (w r c : Nat) : (s.setFifo m w r c).reg = s.reg := rfl
@[simp] theorem State.setFifo_bank (m : Memory) (w r c : Nat) : (s.setFifo m w r c).bank = s.bank := rfl
@[simp] theorem State.setFifo_fifoMem (m : Memory) (w r c : Nat) : (s.setFifo m w r c).fifoMem = m := rfl
@[simp] theorem State.setFifo_fifoW (m : Memory) (w r c : Nat) : (s.setFifo m w r c).fifoW = w := rfl
@[simp] theorem State.setFifo_fifoR (m : Memory) (w r c : Nat) : (s.setFifo m w r c).fifoR = r := rfl
@[simp] theorem State.setFifo_fifoCnt (m : Memory) (w r c : Nat) : (s.setFifo m w r c).fifoCnt = c := rfl
@[simp] theorem State.setFifo_sel (m : Memory) (w r c : Nat) : (s.setFifo m w r c).sel = s.sel := rfl
@[simp] theorem State.setFifo_byteIdx (m : Memory) (w r c : Nat) : (s.setFifo m w r c).byteIdx = s.byteIdx := rfl
@[simp] theorem State.setFifo_isWrite (m : Memory) (w r c : Nat) : (s.setFifo m w r c).isWrite = s.isWrite := rfl
@[simp] theorem State.setFifo_regAddr (m : Memory) (w r c : Nat) : (s.setFifo m w r c).regAddr = s.regAddr := rfl
@[simp] theorem State.setFifo_stage (m : Memory) (w r c : Nat) : (s.setFifo m w r c).stage = s.stage := rfl
@[simp] theorem State.setFifo_tmrPeriod (m : Memory) (w r c : Nat) : (s.setFifo m w r c).tmrPeriod = s.tmrPeriod := rfl
@[simp] theorem State.setFifo_tmrNext (m : Memory) (w r c : Nat) : (s.setFifo m w r c).tmrNext = s.tmrNext := rfl
@[simp] theorem State.setFifo_ampA (m : Memory) (w r c : Nat) : (s.setFifo m w r c).ampA = s.ampA := rfl
@[simp] theorem State.setFifo_ampG (m : Memory) (w r c : Nat) : (s.setFifo m w r c).ampG = s.ampG := rfl
@[simp] theorem State.setFifo_par (m : Memory) (w r c : Nat) : (s.setFifo m w r c).par = s.par := rfl
@[simp] theorem State.setFifo_now (m : Memory) (w r c : Nat) : (s.setFifo m w r c).now = s.now := rfl
@[simp] theorem State.setFifo_inbox (m : Memory) (w r c : Nat) : (s.setFifo m w r c).inbox = s.inbox := rfl
@[simp] theorem State.setFifo_asked (m : Memory) (w r c : Nat) : (s.setFifo m w r c).asked = s.asked := rfl
@[simp] theorem State.setFifo_miso (m : Memory) (w r c : Nat) : (s.setFifo m w r c).miso = s.miso := rfl
@[simp] theorem State.setFifo_diag (m : Memory) (w r c : Nat) : (s.setFifo m w r c).diag = s.diag := rfl
@[simp] theorem State.setFifo_draws (m : Memory) (w r c : Nat) : (s.setFifo m w r c).draws = s.draws := rfl

@[simp] theorem State.setTimer_reg (p : Option Nat) (t : Nat) : (s.setTimer p t).reg = s.reg := rfl
@[simp] theorem State.setTimer_bank (p : Option Nat) (t : Nat) : (s.setTimer p t).bank = s.bank := rfl
@[simp] theorem State.setTimer_fifoMem (p : Option Nat) (t : Nat) : (s.setTimer p t).fifoMem = s.fifoMem := rfl
@[simp] theorem State.setTimer_fifoW (p : Option Nat) (t : Nat) : (s.setTimer p t).fifoW = s.fifoW := rfl
@[simp] theorem State.setTimer_fifoR (p : Option Nat) (t : Nat) : (s.setTimer p t).fifoR = s.fifoR := rfl
@[simp] theorem State.setTimer_fifoCnt (p : Option Nat) (t : Nat) : (s.setTimer p t).fifoCnt = s.fifoCnt := rfl
@[simp] theorem State.setTimer_sel (p : Option Nat) (t : Nat) : (s.setTimer p t).sel = s.sel := rfl
@[simp] theorem State.setTimer_byteIdx (p : Option Nat) (t : Nat) : (s.setTimer p t).byteIdx = s.byteIdx := rfl
@[simp] theorem State.setTimer_isWrite (p : Option Nat) (t : Nat) : (s.setTimer p t).isWrite = s.isWrite := rfl
@[simp] theorem State.setTimer_regAddr (p : Option Nat) (t : Nat) : (s.setTimer p t).regAddr = s.regAddr := rfl
@[simp] theorem State.setTimer_stage (p : Option Nat) (t : Nat) : (s.setTimer p t).stage = s.stage := rfl
@[simp] theorem State.setTimer_tmrPeriod (p : Option Nat) (t : Nat) : (s.setTimer p t).tmrPeriod = p := rfl
@[simp] theorem State.setTimer_tmrNext (p : Option Nat) (t : Nat) : (s.setTimer p t).tmrNext = t := rfl
@[simp] theorem State.setTimer_ampA (p : Option Nat) (t : Nat) : (s.setTimer p t).ampA = s.ampA := rfl
@[simp] theorem State.setTimer_ampG (p : Option Nat) (t : Nat) : (s.setTimer p t).ampG = s.ampG := rfl
@[simp] theorem State.setTimer_par (p : Option Nat) (t : Nat) : (s.setTimer p t).par = s.par := rfl
@[simp] theorem State.setTimer_now (p : Option Nat) (t : Nat) : (s.setTimer p t).now = s.now := rfl
@[simp] theorem State.setTimer_inbox (p : Option Nat) (t : Nat) : (s.setTimer p t).inbox = s.inbox := rfl
@[simp] theorem State.setTimer_asked (p : Option Nat) (t : Nat) : (s.setTimer p t).asked = s.asked := rfl
@[simp] theorem State.setTimer_miso (p : Option Nat) (t : Nat) : (s.setTimer p t).miso = s.miso := rfl
@[simp] theorem State.setTimer_diag (p : Option Nat) (t : Nat) : (s.setTimer p t).diag = s.diag := rfl
@[simp] theorem State.setTimer_draws (p : Option Nat) (t : Nat) : (s.setTimer p t).draws = s.draws := rfl

@[simp] theorem State.respond_reg (v : Byte) : (s.respond v).reg = s.reg := rfl
@[simp] theorem State.respond_bank (v : Byte) : (s.respond v).bank = s.bank := rfl
@[simp] theorem State.respond_fifoMem (v : Byte) : (s.respond v).fifoMem = s.fifoMem := rfl
@[simp] theorem State.respond_fifoW (v : Byte) : (s.respond v).fifoW = s.fifoW := rfl
@[simp] theorem State.respond_fifoR (v : Byte) : (s.respond v).fifoR = s.fifoR := rfl
@[simp] theorem State.respond_fifoCnt (v : Byte) : (s.respond v).fifoCnt = s.fifoCnt := rfl
@[simp] theorem State.respond_sel (v : Byte) : (s.respond v).sel = s.sel := rfl
@[simp] theorem State.respond_byteIdx (v : Byte) : (s.respond v).byteIdx = s.byteIdx := rfl
@[simp] theorem State.respond_isWrite (v : Byte) : (s.respond v).isWrite = s.isWrite := rfl
@[simp] theorem State.respond_regAddr (v : Byte) : (s.respond v).regAddr = s.regAddr := rfl
@[simp] theorem State.respond_stage (v : Byte) : (s.respond v).stage = s.stage := rfl
@[simp] theorem State.respond_tmrPeriod (v : Byte) : (s.respond v).tmrPeriod = s.tmrPeriod := rfl
@[simp] theorem State.respond_tmrNext (v : Byte) : (s.respond v).tmrNext = s.tmrNext := rfl
@[simp] theorem State.respond_ampA (v : Byte) : (s.respond v).ampA = s.ampA := rfl
@[simp] theorem State.respond_ampG (v : Byte) : (s.respond v).ampG = s.ampG := rfl
@[simp] theorem State.respond_par (v : Byte) : (s.respond v).par = s.par := rfl
@[simp] theorem State.respond_now (v : Byte) : (s.respond v).now = s.now := rfl
@[simp] theorem State.respond_inbox (v : Byte) : (s.respond v).inbox = s.inbox := rfl
@[simp] theorem State.respond_asked (v : Byte) : (s.respond v).asked = s.asked := rfl
@[simp] theorem State.respond_miso (v : Byte) : (s.respond v).miso = v :: s.miso := rfl
@[simp] theorem State.respond_diag (v : Byte) : (s.respond v).diag = s.diag := rfl
@[simp] theorem State.respond_draws (v : Byte) : (s.respond v).draws = s.draws := rfl

@[simp] theorem State.respondFree_reg : (s.respondFree).reg = s.reg := rfl
@[simp] theorem State.respondFree_bank : (s.respondFree).bank = s.bank := rfl
@[simp] theorem State.respondFree_fifoMem : (s.respondFree).fifoMem = s.fifoMem := rfl
@[simp] theorem State.respondFree_fifoW : (s.respondFree).fifoW = s.fifoW := rfl
@[simp] theorem State.respondFree_fifoR : (s.respondFree).fifoR = s.fifoR := rfl
@[simp] theorem State.respondFree_fifoCnt : (s.respondFree).fifoCnt = s.fifoCnt := rfl
@[simp] theorem State.respondFree_sel : (s.respondFree).sel = s.sel := rfl
@[simp] theorem State.respondFree_byteIdx : (s.respondFree).byteIdx = s.byteIdx := rfl
@[simp] theorem State.respondFree_isWrite : (s.respondFree).isWrite = s.isWrite := rfl
@[simp] theorem State.respondFree_regAddr : (s.respondFree).regAddr = s.regAddr := rfl
@[simp] theorem State.respondFree_stage : (s.respondFree).stage = s.stage := rfl
@[simp] theorem State.respondFree_tmrPeriod : (s.respondFree).tmrPeriod = s.tmrPeriod := rfl
@[simp] theorem State.respondFree_tmrNext : (s.respondFree).tmrNext = s.tmrNext := rfl
@[simp] theorem State.respondFree_ampA : (s.respondFree).ampA = s.ampA := rfl
@[simp] theorem State.respondFree_ampG : (s.respondFree).ampG = s.ampG := rfl
@[simp] theorem State.respondFree_par : (s.respondFree).par = s.par := rfl
@[simp] theorem State.respondFree_now : (s.respondFree).now = s.now := rfl
@[simp] theorem State.respondFree_inbox : (s.respondFree).inbox = s.inbox := rfl
@[simp] theorem State.respondFree_asked : (s.respondFree).asked = s.asked := rfl
@[simp] theorem State.respondFree_miso : (s.respondFree).miso = Config.freeByte s.draws :: s.miso := rfl
@[simp] theorem State.respondFree_diag : (s.respondFree).diag = s.diag := rfl
@[simp] theorem State.respondFree_draws : (s.respondFree).draws = s.draws + 1 := rfl

@[simp] theorem State.report_reg (d : Diag) : (s.report d).reg = s.reg := rfl
@[simp] theorem State.report_bank (d : Diag) : (s.report d).bank = s.bank := rfl
@[simp] theorem State.report_fifoMem (d : Diag) : (s.report d).fifoMem = s.fifoMem := rfl
@[simp] theorem State.report_fifoW (d : Diag) : (s.report d).fifoW = s.fifoW := rfl
@[simp] theorem State.report_fifoR (d : Diag) : (s.report d).fifoR = s.fifoR := rfl
@[simp] theorem State.report_fifoCnt (d : Diag) : (s.report d).fifoCnt = s.fifoCnt := rfl
@[simp] theorem State.report_sel (d : Diag) : (s.report d).sel = s.sel := rfl
@[simp] theorem State.report_byteIdx (d : Diag) : (s.report d).byteIdx = s.byteIdx := rfl
@[simp] theorem State.report_isWrite (d : Diag) : (s.report d).isWrite = s.isWrite := rfl
@[simp] theorem State.report_regAddr (d : Diag) : (s.report d).regAddr = s.regAddr := rfl
@[simp] theorem State.report_stage (d : Diag) : (s.report d).stage = s.stage := rfl
@[simp] theorem State.report_tmrPeriod (d : Diag) : (s.report d).tmrPeriod = s.tmrPeriod := rfl
@[simp] theorem State.report_tmrNext (d : Diag) : (s.report d).tmrNext = s.tmrNext := rfl
@[simp] theorem State.report_ampA (d : Diag) : (s.report d).ampA = s.ampA := rfl
@[simp] theorem State.report_ampG (d : Diag) : (s.report d).ampG = s.ampG := rfl
@[simp] theorem State.report_par (d : Diag) : (s.report d).par = s.par := rfl
@[simp] theorem State.report_now (d : Diag) : (s.report d).now = s.now := rfl
@[simp] theorem State.report_inbox (d : Diag) : (s.report d).inbox = s.inbox := rfl
@[simp] theorem State.report_asked (d : Diag) : (s.report d).asked = s.asked := rfl
@[simp] theorem State.report_miso (d : Diag) : (s.report d).miso = s.miso := rfl
@[simp] theorem State.report_diag (d : Diag) : (s.report d).diag = d :: s.diag := rfl
@[simp] theorem State.report_draws (d : Diag) : (s.report d).draws = s.draws := rfl

@[simp] theorem State.select_reg : (s.select).reg = s.reg := rfl
@[simp] theorem State.select_bank : (s.select).bank = s.bank := rfl
@[simp] theorem State.select_fifoMem : (s.select).fifoMem = s.fifoMem := rfl
@[simp] theorem State.select_fifoW : (s.select).fifoW = s.fifoW := rfl
@[simp] theorem State.select_fifoR : (s.select).fifoR = s.fifoR := rfl
@[simp] theorem State.select_fifoCnt : (s.select).fifoCnt = s.fifoCnt := rfl
@[simp] theorem State.select_sel : (s.select).sel = true := rfl
@[simp] theorem State.select_byteIdx : (s.select).byteIdx = 0 := rfl
@[simp] theorem State.select_isWrite : (s.select).isWrite = s.isWrite := rfl
@[simp] theorem State.select_regAddr : (s.select).regAddr = s.regAddr := rfl
@[simp] theorem State.select_stage : (s.select).stage = s.stage := rfl
@[simp] theorem State.select_tmrPeriod : (s.select).tmrPeriod = s.tmrPeriod := rfl
@[simp] theorem State.select_tmrNext : (s.select).tmrNext = s.tmrNext := rfl
@[simp] theorem State.select_ampA : (s.select).ampA = s.ampA := rfl
@[simp] theorem State.select_ampG : (s.select).ampG = s.ampG := rfl
@[simp] theorem State.select_par : (s.select).par = s.par := rfl
@[simp] theorem State.select_now : (s.select).now = s.now := rfl
@[simp] theorem State.select_inbox : (s.select).inbox = s.inbox := rfl
@[simp] theorem State.select_asked : (s.select).asked = s.asked := rfl
@[simp] theorem State.select_miso : (s.select).miso = s.miso := rfl
@[simp] theorem State.select_diag : (s.select).diag = s.diag := rfl
@[simp] theorem State.select_draws : (s.select).draws = s.draws := rfl

@[simp] theorem State.deselect_reg : (s.deselect).reg = s.reg := rfl
@[simp] theorem State.deselect_bank : (s.deselect).bank = s.bank := rfl
@[simp] theorem State.deselect_fifoMem : (s.deselect).fifoMem = s.fifoMem := rfl
@[simp] theorem State.deselect_fifoW : (s.deselect).fifoW = s.fifoW := rfl
@[simp] theorem State.deselect_fifoR : (s.deselect).fifoR = s.fifoR := rfl
@[simp] theorem State.deselect_fifoCnt : (s.deselect).fifoCnt = s.fifoCnt := rfl
@[simp] theorem State.deselect_sel : (s.deselect).sel = false := rfl
@[simp] theorem State.deselect_byteIdx : (s.deselect).byteIdx = s.byteIdx := rfl
@[simp] theorem State.deselect_isWrite : (s.deselect).isWrite = s.isWrite := rfl
@[simp] theorem State.deselect_regAddr : (s.deselect).regAddr = s.regAddr := rfl
@[simp] theorem State.deselect_stage : (s.deselect).stage = s.stage := rfl
@[simp] theorem State.deselect_tmrPeriod : (s.deselect).tmrPeriod = s.tmrPeriod := rfl
@[simp] theorem State.deselect_tmrNext : (s.deselect).tmrNext = s.tmrNext := rfl
@[simp] theorem State.deselect_ampA : (s.deselect).ampA = s.ampA := rfl
@[simp] theorem State.deselect_ampG : (s.deselect).ampG = s.ampG := rfl
@[simp] theorem State.deselect_par : (s.deselect).par = s.par := rfl
@[simp] theorem State.deselect_now : (s.deselect).now = s.now := rfl
@[simp] theorem State.deselect_inbox : (s.deselect).inbox = s.inbox := rfl
@[simp] theorem State.deselect_asked : (s.deselect).asked = s.asked := rfl
@[simp] theorem State.deselect_miso : (s.deselect).miso = s.miso := rfl
@[simp] theorem State.deselect_diag : (s.deselect).diag = s.diag := rfl
@[simp] theorem State.deselect_draws : (s.deselect).draws = s.draws := rfl

@[simp] theorem State.advanceRead_reg : (s.advanceRead).reg = s.reg := rfl
@[simp] theorem State.advanceRead_bank : (s.advanceRead).bank = s.bank := rfl
@[simp] theorem State.advanceRead_fifoMem : (s.advanceRead).fifoMem = s.fifoMem := rfl
@[simp] theorem State.advanceRead_fifoW : (s.advanceRead).fifoW = s.fifoW := rfl
@[simp] theorem State.advanceRead_fifoR : (s.advanceRead).fifoR = s.fifoR := rfl
@[simp] theorem State.advanceRead_fifoCnt : (s.advanceRead).fifoCnt = s.fifoCnt := rfl
@[simp] theorem State.advanceRead_sel : (s.advanceRead).sel = s.sel := rfl
@[simp] theorem State.advanceRead_byteIdx : (s.advanceRead).byteIdx = s.byteIdx + 1 := rfl
@[simp] theorem State.advanceRead_isWrite : (s.advanceRead).isWrite = s.isWrite := rfl
@[simp] theorem State.advanceRead_regAddr : (s.advanceRead).regAddr = s.nextAddr s.regAddr := rfl
@[simp] theorem State.advanceRead_stage : (s.advanceRead).stage = s.stage := rfl
@[simp] theorem State.advanceRead_tmrPeriod : (s.advanceRead).tmrPeriod = s.tmrPeriod := rfl
@[simp] theorem State.advanceRead_tmrNext : (s.advanceRead).tmrNext = s.tmrNext := rfl
@[simp] theorem State.advanceRead_ampA : (s.advanceRead).ampA = s.ampA := rfl
@[simp] theorem State.advanceRead_ampG : (s.advanceRead).ampG = s.ampG := rfl
@[simp] theorem State.advanceRead_par : (s.advanceRead).par = s.par := rfl
@[simp] theorem State.advanceRead_now : (s.advanceRead).now = s.now := rfl
@[simp] theorem State.advanceRead_inbox : (s.advanceRead).inbox = s.inbox := rfl
@[simp] theorem State.advanceRead_asked : (s.advanceRead).asked = s.asked := rfl
@[simp] theorem State.advanceRead_miso : (s.advanceRead).miso = s.miso := rfl
@[simp] theorem State.advanceRead_diag : (s.advanceRead).diag = s.diag := rfl
@[simp] theorem State.advanceRead_draws : (s.advanceRead).draws = s.draws := rfl

@[simp] theorem State.askHost_reg : (s.askHost).reg = s.reg := rfl
@[simp] theorem State.askHost_bank : (s.askHost).bank = s.bank := rfl
@[simp] theorem State.askHost_fifoMem : (s.askHost).fifoMem = s.fifoMem := rfl
@[simp] theorem State.askHost_fifoW : (s.askHost).fifoW = s.fifoW := rfl
@[simp] theorem State.askHost_fifoR : (s.askHost).fifoR = s.fifoR := rfl
@[simp] theorem State.askHost_fifoCnt : (s.askHost).fifoCnt = s.fifoCnt := rfl
@[simp] theorem State.askHost_sel : (s.askHost).sel = s.sel := rfl
@[simp] theorem State.askHost_byteIdx : (s.askHost).byteIdx = s.byteIdx := rfl
@[simp] theorem State.askHost_isWrite : (s.askHost).isWrite = s.isWrite := rfl
@[simp] theorem State.askHost_regAddr : (s.askHost).regAddr = s.regAddr := rfl
@[simp] theorem State.askHost_stage : (s.askHost).stage = s.stage := rfl
@[simp] theorem State.askHost_tmrPeriod : (s.askHost).tmrPeriod = s.tmrPeriod := rfl
@[simp] theorem State.askHost_tmrNext : (s.askHost).tmrNext = s.tmrNext := rfl
@[simp] theorem State.askHost_ampA : (s.askHost).ampA = s.ampA := rfl
@[simp] theorem State.askHost_ampG : (s.askHost).ampG = s.ampG := rfl
@[simp] theorem State.askHost_par : (s.askHost).par = s.par := rfl
@[simp] theorem State.askHost_now : (s.askHost).now = s.now := rfl
@[simp] theorem State.askHost_inbox : (s.askHost).inbox = Config.hostEvents s.asked := rfl
@[simp] theorem State.askHost_asked : (s.askHost).asked = s.asked + 1 := rfl
@[simp] theorem State.askHost_miso : (s.askHost).miso = s.miso := rfl
@[simp] theorem State.askHost_diag : (s.askHost).diag = s.diag := rfl
@[simp] theorem State.askHost_draws : (s.askHost).draws = s.draws := rfl

@[simp] theorem State.arrive_reg (t : Nat) (rest : List Delivery) : (s.arrive t rest).reg = s.reg := rfl
@[simp] theorem State.arrive_bank (t : Nat) (rest : List Delivery) : (s.arrive t rest).bank = s.bank := rfl
@[simp] theorem State.arrive_fifoMem (t : Nat) (rest : List Delivery) : (s.arrive t rest).fifoMem = s.fifoMem := rfl
@[simp] theorem State.arrive_fifoW (t : Nat) (rest : List Delivery) : (s.arrive t rest).fifoW = s.fifoW := rfl
@[simp] theorem State.arrive_fifoR (t : Nat) (rest : List Delivery) : (s.arrive t rest).fifoR = s.fifoR := rfl
@[simp] theorem State.arrive_fifoCnt (t : Nat) (rest : List Delivery) : (s.arrive t rest).fifoCnt = s.fifoCnt := rfl
@[simp] theorem State.arrive_sel (t : Nat) (rest : List Delivery) : (s.arrive t rest).sel = s.sel := rfl
@[simp] theorem State.arrive_byteIdx (t : Nat) (rest : List Delivery) : (s.arrive t rest).byteIdx = s.byteIdx := rfl
@[simp] theorem State.arrive_isWrite (t : Nat) (rest : List Delivery) : (s.arrive t rest).isWrite = s.isWrite := rfl
@[simp] theorem State.arrive_regAddr (t : Nat) (rest : List Delivery) : (s.arrive t rest).regAddr = s.regAddr := rfl
@[simp] theorem State.arrive_stage (t : Nat) (rest : List Delivery) : (s.arrive t rest).stage = s.stage := rfl
@[simp] theorem State.arrive_tmrPeriod (t : Nat) (rest : List Delivery) : (s.arrive t rest).tmrPeriod = s.tmrPeriod := rfl
@[simp] theorem State.arrive_tmrNext (t : Nat) (rest : List Delivery) : (s.arrive t rest).tmrNext = s.tmrNext := rfl
@[simp] theorem State.arrive_ampA (t : Nat) (rest : List Delivery) : (s.arrive t rest).ampA = s.ampA := rfl
@[simp] theorem State.arrive_ampG (t : Nat) (rest : List Delivery) : (s.arrive t rest).ampG = s.ampG := rfl
@[simp] theorem State.arrive_par (t : Nat) (rest : List Delivery) : (s.arrive t rest).par = s.par := rfl
@[simp] theorem State.arrive_now (t : Nat) (rest : List Delivery) : (s.arrive t rest).now = t := rfl
@[simp] theorem State.arrive_inbox (t : Nat) (rest : List Delivery) : (s.arrive t rest).inbox = rest := rfl
@[simp] theorem State.arrive_asked (t : Nat) (rest : List Delivery) : (s.arrive t rest).asked = s.asked := rfl
@[simp] theorem State.arrive_miso (t : Nat) (rest : List Delivery) : (s.arrive t rest).miso = s.miso := rfl
@[simp] theorem State.arrive_diag (t : Nat) (rest : List Delivery) : (s.arrive t rest).diag = s.diag := rfl
@[simp] theorem State.arrive_draws (t : Nat) (rest : List Delivery) : (s.arrive t rest).draws = s.draws := rfl

@[simp] theorem State.writeAmp_reg (w : AmpSel) (q : Rat) : (s.writeAmp w q).reg = s.reg := by cases w <;> rfl
@[simp] theorem State.writeAmp_bank (w : AmpSel) (q : Rat) : (s.writeAmp w q).bank = s.bank := by cases w <;> rfl
@[simp] theorem State.writeAmp_fifoMem (w : AmpSel) (q : Rat) : (s.writeAmp w q).fifoMem = s.fifoMem := by cases w <;> rfl
@[simp] theorem State.writeAmp_fifoW (w : AmpSel) (q : Rat) : (s.writeAmp w q).fifoW = s.fifoW := by cases w <;> rfl
@[simp] theorem State.writeAmp_fifoR (w : AmpSel) (q : Rat) : (s.writeAmp w q).fifoR = s.fifoR := by cases w <;> rfl
@[simp] theorem State.writeAmp_fifoCnt (w : AmpSel) (q : Rat) : (s.writeAmp w q).fifoCnt = s.fifoCnt := by cases w <;> rfl
@[simp] theorem State.writeAmp_sel (w : AmpSel) (q : Rat) : (s.writeAmp w q).sel = s.sel := by cases w <;> rfl
@[simp] theorem State.writeAmp_byteIdx (w : AmpSel) (q : Rat) : (s.writeAmp w q).byteIdx = s.byteIdx := by cases w <;> rfl
@[simp] theorem State.writeAmp_isWrite (w : AmpSel) (q : Rat) : (s.writeAmp w q).isWrite = s.isWrite := by cases w <;> rfl
@[simp] theorem State.writeAmp_regAddr (w : AmpSel) (q : Rat) : (s.writeAmp w q).regAddr = s.regAddr := by cases w <;> rfl
@[simp] theorem State.writeAmp_stage (w : AmpSel) (q : Rat) : (s.writeAmp w q).stage = s.stage := by cases w <;> rfl
@[simp] theorem State.writeAmp_tmrPeriod (w : AmpSel) (q : Rat) : (s.writeAmp w q).tmrPeriod = s.tmrPeriod := by cases w <;> rfl
@[simp] theorem State.writeAmp_tmrNext (w : AmpSel) (q : Rat) : (s.writeAmp w q).tmrNext = s.tmrNext := by cases w <;> rfl
@[simp] theorem State.writeAmp_par (w : AmpSel) (q : Rat) : (s.writeAmp w q).par = s.par := by cases w <;> rfl
@[simp] theorem State.writeAmp_now (w : AmpSel) (q : Rat) : (s.writeAmp w q).now = s.now := by cases w <;> rfl
@[simp] theorem State.writeAmp_inbox (w : AmpSel) (q : Rat) : (s.writeAmp w q).inbox = s.inbox := by cases w <;> rfl
@[simp] theorem State.writeAmp_asked (w : AmpSel) (q : Rat) : (s.writeAmp w q).asked = s.asked := by cases w <;> rfl
@[simp] theorem State.writeAmp_miso (w : AmpSel) (q : Rat) : (s.writeAmp w q).miso = s.miso := by cases w <;> rfl
@[simp] theorem State.writeAmp_diag (w : AmpSel) (q : Rat) : (s.writeAmp w q).diag = s.diag := by cases w <;> rfl
@[simp] theorem State.writeAmp_draws (w : AmpSel) (q : Rat) : (s.writeAmp w q).draws = s.draws := by cases w <;> rfl
@[simp] theorem State.writeAmp_accel_ampA (q : Rat) : (s.writeAmp .accel q).ampA = q := rfl
@[simp] theorem State.writeAmp_accel_ampG (q : Rat) : (s.writeAmp .accel q).ampG = s.ampG := rfl
@[simp] theorem State.writeAmp_gyro_ampA (q : Rat) : (s.writeAmp .gyro q).ampA = s.ampA := rfl
@[simp] theorem State.writeAmp_gyro_ampG (q : Rat) : (s.writeAmp .gyro q).ampG = q := rfl

@[simp] theorem State.setBank_regAt (v : Byte) (b : RegAddr) : (s.setBank v).regAt b = s.regAt b := rfl
@[simp] theorem State.setFifo_regAt (m : Memory) (w r c : Nat) (b : RegAddr) : (s.setFifo m w r c).regAt b = s.regAt b := rfl
@[simp] theorem State.setTimer_regAt (p : Option Nat) (t : Nat) (b : RegAddr) : (s.setTimer p t).regAt b = s.regAt b := rfl
@[simp] theorem State.respond_regAt (v : Byte) (b : RegAddr) : (s.respond v).regAt b = s.regAt b := rfl
@[simp] theorem State.respondFree_regAt (b : RegAddr) : (s.respondFree).regAt b = s.regAt b := rfl
@[simp] theorem State.report_regAt (d : Diag) (b : RegAddr) : (s.report d).regAt b = s.regAt b := rfl
@[simp] theorem State.select_regAt (b : RegAddr) : (s.select).regAt b = s.regAt b := rfl
@[simp] theorem State.deselect_regAt (b : RegAddr) : (s.deselect).regAt b = s.regAt b := rfl
@[simp] theorem State.advanceRead_regAt (b : RegAddr) : (s.advanceRead).regAt b = s.regAt b := rfl
@[simp] theorem State.askHost_regAt (b : RegAddr) : (s.askHost).regAt b = s.regAt b := rfl
@[simp] theorem State.arrive_regAt (t : Nat) (rest : List Delivery) (b : RegAddr) : (s.arrive t rest).regAt b = s.regAt b := rfl
@[simp] theorem State.writeAmp_regAt (w : AmpSel) (q : Rat) (b : RegAddr) : (s.writeAmp w q).regAt b = s.regAt b := by cases w <;> rfl

/-- Reading a register cell after a write: the written value at that address, the old one elsewhere. -/
@[simp] theorem State.writeReg_regAt (a b : RegAddr) (v : Byte) :
    (s.writeReg a v).regAt b = if b = a then v else s.regAt b := by
  unfold State.regAt State.writeReg
  simp only [Vector.getElem_set, BitVec.toNat_inj]
  by_cases h : b = a
  · simp [h]
  · simp [h, Ne.symm h]

/-- Two states are equal when their register cells and their other fields are. -/
theorem State.reg_ext {s t : State} (h : ∀ a, s.regAt a = t.regAt a) : s.reg = t.reg := by
  apply Vector.ext
  intro i hi
  have := h (BitVec.ofNat 7 i)
  unfold State.regAt at this
  have e : (BitVec.ofNat 7 i).toNat = i := by simp; omega
  simpa [e] using this

end Sys2Proof.Machine
end

