-- ==== Sys2Proof/Laws/Ops.lean ====
section
/-! SUPPORT. One lemma for each shared operation over outcomes, outputs and the bank check. -/
namespace Sys2Proof.Machine

@[simp] theorem andThen_next (s : State) (k : State → Host.Outcome State Fault Refusal) :
    andThen (.next s) k = k s := rfl

@[simp] theorem andThen_refused (r : Refusal) (k : State → Host.Outcome State Fault Refusal) :
    andThen (.refused r) k = .refused r := rfl

/-- `andThen` answers a next state only through one. -/
theorem andThen_eq_next {o : Host.Outcome State Fault Refusal} {k : State → Host.Outcome State Fault Refusal}
    {t : State} (h : andThen o k = .next t) : ∃ s, o = .next s ∧ k s = .next t := by
  cases o with
  | next s => exact ⟨s, rfl, h⟩
  | fault f => cases f
  | refused r => cases h

/-- No outcome of this block is a fault (R123). -/
theorem outcome_not_fault (o : Host.Outcome State Fault Refusal) : (∃ t, o = .next t) ∨ ∃ r, o = .refused r := by
  cases o with
  | next s => exact .inl ⟨s, rfl⟩
  | fault f => cases f
  | refused r => exact .inr ⟨r, rfl⟩

@[simp] theorem State.gateRead_bank0 {s : State} (h : s.bank = 0#8) (k : State → Byte × State) : s.gateRead k = k s := by
  simp [State.gateRead, h]

@[simp] theorem State.gateRead_other {s : State} (h : s.bank ≠ 0#8) (k : State → Byte × State) :
    s.gateRead k = (Config.zeroByte, s) := by
  simp [State.gateRead, h]

@[simp] theorem State.gateWrite_bank0 {s : State} (h : s.bank = 0#8) (k : State → State) : s.gateWrite k = k s := by
  simp [State.gateWrite, h]

@[simp] theorem State.gateWrite_other {s : State} (h : s.bank ≠ 0#8) (k : State → State) : s.gateWrite k = s := by
  simp [State.gateWrite, h]

/-- n free bytes on MISO change the outputs alone: n more MISO bytes and n more draws. -/
theorem State.respondFreeMany_spec (n : Nat) (s : State) :
    ∃ out : List Byte, out.length = n ∧
      State.respondFreeMany n s = { s with miso := out ++ s.miso, draws := s.draws + n } := by
  induction n generalizing s with
  | zero => exact ⟨[], rfl, rfl⟩
  | succ k ih =>
    obtain ⟨out, hl, he⟩ := ih s.respondFree
    refine ⟨out ++ [Config.freeByte s.draws], by simp [hl], ?_⟩
    rw [State.respondFreeMany, he]
    simp only [State.respondFree, List.append_assoc, List.singleton_append]
    rw [Nat.add_assoc, Nat.add_comm 1 k]

end Sys2Proof.Machine
end

