-- ==== Sys2Proof/Laws/Operands.lean ====
section
/-! SUPPORT. The bit fields of operands: bytes of a 16-bit value, access words, the wrapping addresses. -/
namespace Sys2Proof.Machine

@[simp] theorem addrField_accessWord (r : Bool) (a : RegAddr) : addrField (accessWord r a) = a := by
  revert r a
  decide

@[simp] theorem isReadByte_accessWord (r : Bool) (a : RegAddr) : isReadByte (accessWord r a) = r := by
  revert r a
  decide

/-- A byte is its direction bit and its address. -/
@[simp] theorem accessWord_fields (b : Byte) : accessWord (isReadByte b) (addrField b) = b := by
  revert b
  decide

@[simp] theorem lowByte_toNat (v : Half) : (lowByte v).toNat = v.toNat % 256 := by
  simp [lowByte, BitVec.extractLsb'_toNat]

@[simp] theorem highByte_toNat (v : Half) : (highByte v).toNat = v.toNat / 256 := by
  have := v.isLt
  simp only [highByte, BitVec.extractLsb'_toNat, Nat.shiftRight_eq_div_pow]
  omega

theorem le16_toNat (lo hi : Byte) : (le16 lo hi).toNat = lo.toNat + 256 * hi.toNat := by
  have h1 := lo.isLt
  have h2 := hi.isLt
  have e : (hi.toNat <<< 8) % 65536 = 256 * hi.toNat := by rw [Nat.shiftLeft_eq]; omega
  simp only [le16, BitVec.toNat_or, BitVec.toNat_setWidth, BitVec.toNat_shiftLeft]
  rw [Nat.mod_eq_of_lt (by omega : lo.toNat < 2 ^ 16), Nat.mod_eq_of_lt (by omega : hi.toNat < 2 ^ 16), Nat.or_comm,
    show (2 : Nat) ^ 16 = 65536 by norm_num, e, show 256 * hi.toNat = hi.toNat <<< 8 by rw [Nat.shiftLeft_eq]; omega,
    ← Nat.shiftLeft_add_eq_or_of_lt (by omega : lo.toNat < 2 ^ 8)]
  omega

/-- The bytes of a 16-bit value put together again. -/
@[simp] theorem le16_bytes (v : Half) : le16 (lowByte v) (highByte v) = v := by
  apply BitVec.eq_of_toNat_eq
  rw [le16_toNat, lowByte_toNat, highByte_toNat]
  omega

end Sys2Proof.Machine
end

