-- ==== Sys2Proof/Laws/Fifo.lean ====
section
/-! SUPPORT. What each operation of the FIFO engine does, said once. -/
namespace Sys2Proof.Machine

/-- The INT_STATUS byte that UpdateCount leaves. -/
def State.statusAfterCount (s : State) : Byte :=
  if s.watermarkReached then s.regAt Config.intStatus ||| fifoWmFlag else s.regAt Config.intStatus

theorem State.testWatermark_eq (s : State) :
    s.testWatermark = { s with reg := s.testWatermark.reg } := by
  unfold State.testWatermark State.raiseFlag
  split <;> rfl

/-- UpdateCount changes register cells alone. -/
theorem State.updateCount_eq (s : State) : s.updateCount = { s with reg := s.updateCount.reg } := by
  unfold State.updateCount
  rw [State.testWatermark_eq]
  rfl

/-- The count pair's new values do not take part in the watermark test. -/
theorem State.watermarkReached_writeCount (s : State) (v w : Byte) :
    ((s.writeReg Config.fifoCountLo v).writeReg Config.fifoCountHi w).watermarkReached = s.watermarkReached := by
  have h : ((s.writeReg Config.fifoCountLo v).writeReg Config.fifoCountHi w).watermark = s.watermark := by
    unfold State.watermark
    rw [State.writeReg_regAt, State.writeReg_regAt, State.writeReg_regAt, State.writeReg_regAt]
    rfl
  unfold State.watermarkReached State.recordCount
  rw [h]
  rfl

/-- Every register cell after UpdateCount. -/
theorem State.updateCount_regAt (s : State) (a : RegAddr) :
    s.updateCount.regAt a =
      if a = Config.fifoCountLo then lowByte (countHalf s.recordCount)
      else if a = Config.fifoCountHi then highByte (countHalf s.recordCount)
      else if a = Config.intStatus then s.statusAfterCount
      else s.regAt a := by
  have h1 : Config.fifoCountLo ≠ Config.fifoCountHi := by decide
  have h2 : Config.fifoCountLo ≠ Config.intStatus := by decide
  have h3 : Config.fifoCountHi ≠ Config.intStatus := by decide
  unfold State.updateCount State.testWatermark State.statusAfterCount
  rw [State.watermarkReached_writeCount]
  split <;> simp only [State.raiseFlag, State.writeReg_regAt] <;> split_ifs <;> simp_all

/-- A flag is raised by OR into INT_STATUS and nowhere else. -/
theorem State.raiseFlag_regAt (s : State) (f : Byte) (a : RegAddr) :
    (s.raiseFlag f).regAt a = if a = Config.intStatus then s.regAt Config.intStatus ||| f else s.regAt a := by
  simp [State.raiseFlag]

/-- What a ring copy lists lies inside the ring. -/
theorem writeRing_mem {cap w : Nat} {buf : List Byte} {m : Memory} (hc : 0 < cap) (h : ∀ c ∈ m, c.1 < cap) :
    ∀ c ∈ writeRing cap w buf m, c.1 < cap := by
  induction buf generalizing w m with
  | nil => exact h
  | cons b rest ih =>
    refine ih ?_
    intro c hcm
    rcases Memory.mem_write hcm with hcm | e
    · exact h c hcm
    · rw [e]; exact Nat.mod_lt _ hc

/-- A ring copy keeps the canonical form. -/
theorem writeRing_wf {cap w : Nat} {buf : List Byte} {m : Memory} (h : m.wf = true) : (writeRing cap w buf m).wf = true := by
  induction buf generalizing w m with
  | nil => exact h
  | cons b rest ih => exact ih (Memory.write_wf _ _ h)

/-- A byte that the copy does not reach reads as before. -/
theorem writeRing_read_other {cap w a : Nat} {buf : List Byte} {m : Memory} (h : m.wf = true)
    (ha : ∀ i, i < buf.length → (w + i) % cap ≠ a) : (writeRing cap w buf m).read a = m.read a := by
  induction buf generalizing w m with
  | nil => rfl
  | cons b rest ih =>
    have h0 : w % cap ≠ a := by simpa using ha 0 (by simp)
    rw [writeRing, ih (Memory.write_wf _ _ h) ?_, Memory.read_write _ _ _ h, if_neg (Ne.symm h0)]
    intro i hi
    have := ha (i + 1) (by simp; omega)
    rwa [show w + 1 + i = w + (i + 1) by omega]

/-- The i-th byte of a copy no longer than the ring stands i places on. -/
theorem writeRing_read {cap w i : Nat} {buf : List Byte} {m : Memory} (h : m.wf = true) (hl : buf.length ≤ cap)
    (hi : i < buf.length) : (writeRing cap w buf m).read ((w + i) % cap) = buf[i] := by
  induction buf generalizing w m i with
  | nil => simp at hi
  | cons b rest ih =>
    simp only [List.length_cons] at hl hi
    cases i with
    | zero =>
      rw [writeRing, writeRing_read_other (Memory.write_wf _ _ h), Memory.read_write _ _ _ h]
      · simp
      · intro j hj e
        have : (w + 1 + j) % cap = (w + 0) % cap := e
        have hd : (w + 1 + j) ≡ w + 0 [MOD cap] := this
        have := (Nat.modEq_iff_dvd' (by omega)).1 hd.symm
        exact absurd (Nat.le_of_dvd (by omega) this) (by omega)
    | succ k =>
      rw [writeRing, show w + (k + 1) = w + 1 + k by omega, ih (Memory.write_wf _ _ h) (by omega) (by omega)]
      rfl

/-- Push changes the FIFO and register cells alone. -/
theorem State.push_eq (s : State) (buf : List Byte) :
    s.push buf =
      { s with
        reg := (s.push buf).reg
        fifoMem := writeRing s.par.fifoCap s.fifoW buf s.fifoMem
        fifoW := (s.fifoW + buf.length) % s.par.fifoCap
        fifoR := if s.par.fifoCap < s.fifoCnt + buf.length then (s.fifoR + buf.length) % s.par.fifoCap else s.fifoR
        fifoCnt := if s.par.fifoCap < s.fifoCnt + buf.length then s.fifoCnt else s.fifoCnt + buf.length } := by
  by_cases h : s.par.fifoCap < s.fifoCnt + buf.length
  · have e : s.push buf = ((s.copyIn buf).pushOverflow buf.length).updateCount := by
      unfold State.push State.countIn
      rw [if_pos (show (s.copyIn buf).par.fifoCap < (s.copyIn buf).fifoCnt + buf.length from h)]
    rw [e, State.updateCount_eq, if_pos h, if_pos h]
    rfl
  · have e : s.push buf = ((s.copyIn buf).setFifo (s.copyIn buf).fifoMem (s.copyIn buf).fifoW (s.copyIn buf).fifoR
        (s.fifoCnt + buf.length)).updateCount := by
      unfold State.push State.countIn
      rw [if_neg (show ¬(s.copyIn buf).par.fifoCap < (s.copyIn buf).fifoCnt + buf.length from h)]
      rfl
    rw [e, State.updateCount_eq, if_neg h, if_neg h]
    rfl

/-- Pop answers the sentinel and changes nothing when the FIFO is empty (R94). -/
theorem State.pop_empty {s : State} (h : s.fifoCnt = 0) : s.pop = (Config.fifoEmpty, s) := by
  simp [State.pop, h, State.popEmpty]

/-- Pop of a non-empty FIFO answers the byte at FIFO_R (R93). -/
theorem State.pop_nonempty {s : State} (h : s.fifoCnt ≠ 0) :
    s.pop = (s.fifoMem.read s.fifoR, s.takeOne.updateCount) := by
  simp [State.pop, h]

/-- A pop of a non-empty FIFO changes FIFO_R, FIFO_CNT and register cells alone. -/
theorem State.takeOne_updateCount_eq (s : State) :
    s.takeOne.updateCount =
      { s with
        reg := s.takeOne.updateCount.reg
        fifoR := (s.fifoR + 1) % s.par.fifoCap
        fifoCnt := s.fifoCnt - 1 } := by
  rw [State.updateCount_eq]
  rfl

end Sys2Proof.Machine
end

