-- ==== Sys2Proof/Laws/Exec.lean ====
section
/-! SUPPORT. What exec can do, said once: it always answers a next state, a register access changes no transaction scratch
and none of the host's fields, and only certain instructions touch the FIFO, the timer or BANK. -/
namespace Sys2Proof.Machine

/-- The state of a meaning's answer. -/
def execState (i : Instr) (s : State) : State :=
  match i with
  | .rd a => s.commandBeat true a
  | .wr a => s.commandBeat false a
  | .rdIntStatus => (s.gateRead State.readToClear).2.respond (s.gateRead State.readToClear).1
  | .rdFifoData => (s.gateRead State.pop).2.respond (s.gateRead State.pop).1
  | .rdReg a => (s.gateRead (State.plainRead a)).2.respond (s.gateRead (State.plainRead a)).1
  | .wrRegBankSel v => s.setBank v
  | .wrAccelConfig0 v => s.gateWrite (State.writeOdr v)
  | .wrFifoData _ => s.gateWrite id
  | .wrReg a v => s.gateWrite (fun t => t.writeReg a v)

theorem exec_eq_execState (i : Instr) (s : State) : exec i s = .next (execState i s) := by
  cases i <;> rfl

/-- A gated read leaves whatever its body leaves. -/
theorem State.gateRead_field {α : Type} (f : State → α) (s : State) (k : State → Byte × State)
    (h : f (k s).2 = f s) : f (s.gateRead k).2 = f s := by
  unfold State.gateRead
  split
  · exact h
  · rfl

/-- A gated write leaves whatever its body leaves. -/
theorem State.gateWrite_field {α : Type} (f : State → α) (s : State) (k : State → State)
    (h : f (k s) = f s) : f (s.gateWrite k) = f s := by
  unfold State.gateWrite
  split
  · exact h
  · rfl

/-- The timer restart changes the timer alone (R106). -/
theorem State.timerReconfigure_eq (s : State) (c : BitVec 4) :
    s.timerReconfigure c =
      { s with
        tmrPeriod := (s.timerReconfigure c).tmrPeriod
        tmrNext := (s.timerReconfigure c).tmrNext } := by
  unfold State.timerReconfigure
  split <;> rfl

/-- A pop changes the FIFO's read side and register cells alone. -/
theorem State.pop_eq (s : State) :
    ∃ reg r c, s.pop.2 = { s with reg := reg, fifoR := r, fifoCnt := c } := by
  by_cases h : s.fifoCnt = 0
  · exact ⟨_, _, _, by rw [State.pop_empty h]⟩
  · exact ⟨_, _, _, by rw [State.pop_nonempty h]; exact State.takeOne_updateCount_eq s⟩

/-- A register access keeps every field outside the register file, BANK, the FIFO's read side, the timer and MISO. -/
theorem exec_access_keeps {α : Type} (f : State → α)
    (hf : ∀ (s : State) reg bank fifoR fifoCnt p t miso,
      f { s with reg := reg, bank := bank, fifoR := fifoR, fifoCnt := fifoCnt, tmrPeriod := p, tmrNext := t, miso := miso }
        = f s)
    {i : Instr} (hi : i.phase = .access) (s : State) : f (execState i s) = f s := by
  cases i with
  | rd a => cases hi
  | wr a => cases hi
  | rdIntStatus =>
    refine (hf (s.gateRead State.readToClear).2 _ _ _ _ _ _ _).trans ?_
    exact State.gateRead_field f s _ (hf s _ _ _ _ _ _ _)
  | rdFifoData =>
    refine (hf (s.gateRead State.pop).2 _ _ _ _ _ _ _).trans ?_
    refine State.gateRead_field f s _ ?_
    obtain ⟨_, _, _, e⟩ := State.pop_eq s
    rw [e]
    exact hf s _ _ _ _ _ _ _
  | rdReg a =>
    refine (hf (s.gateRead (State.plainRead a)).2 _ _ _ _ _ _ _).trans ?_
    exact State.gateRead_field f s _ rfl
  | wrRegBankSel v => exact hf s _ _ _ _ _ _ _
  | wrAccelConfig0 v =>
    refine State.gateWrite_field f s _ ?_
    unfold State.writeOdr
    rw [State.timerReconfigure_eq]
    exact hf s _ _ _ _ _ _ _
  | wrFifoData v => exact State.gateWrite_field f s _ rfl
  | wrReg a v => exact State.gateWrite_field f s (fun t => t.writeReg a v) (hf s _ _ _ _ _ _ _)

/-- A decoded read or write access is of the access phase. -/
@[simp] theorem decodeRead_phase (b : Byte) : (decodeRead b).phase = .access := by
  unfold decodeRead
  split_ifs <;> rfl

@[simp] theorem decodeWrite_phase (b v : Byte) : (decodeWrite b v).phase = .access := by
  unfold decodeWrite
  split_ifs <;> rfl

/-- Running accesses one after the other always answers a next state. -/
def execStates (is : List Instr) (s : State) : State := is.foldl (fun t i => execState i t) s

theorem execAll_eq (is : List Instr) (s : State) : execAll is s = .next (execStates is s) := by
  induction is generalizing s with
  | nil => rfl
  | cons i rest ih =>
    rw [execAll, exec_eq_execState, andThen_next, ih]
    rfl

theorem readBeat_eq (s : State) :
    readBeat s = .next (execState (decodeRead (accessWord true s.regAddr)) s).advanceRead := by
  rw [readBeat, exec_eq_execState, andThen_next]

/-- A beat answers a next state, by the rule that its phase selects (R110). -/
theorem beat_cases (b : Byte) (s : State) :
    (s.byteIdx = 0 ∧ beat b s = .next (execState (decodeCommand b) s)) ∨
    (s.byteIdx ≠ 0 ∧ s.isWrite = false ∧
      beat b s = .next (execState (decodeRead (accessWord true s.regAddr)) s).advanceRead) ∨
    (s.byteIdx ≠ 0 ∧ s.isWrite = true ∧ s.byteIdx ≤ 2 ∧ beat b s = .next (s.stageBeat b)) ∨
    (2 < s.byteIdx ∧ s.isWrite = true ∧ beat b s = .next s.excessBeat) := by
  by_cases h0 : s.byteIdx = 0
  · exact .inl ⟨h0, by simp [beat, h0, exec_eq_execState]⟩
  · by_cases hw : s.isWrite = true
    · by_cases h2 : s.byteIdx ≤ 2
      · exact .inr (.inr (.inl ⟨h0, hw, h2, by simp [beat, h0, hw, h2]⟩))
      · exact .inr (.inr (.inr ⟨by omega, hw, by simp [beat, h0, hw, h2]⟩))
    · have hw' : s.isWrite = false := by simpa using hw
      exact .inr (.inl ⟨h0, hw', by simp [beat, h0, hw', readBeat_eq]⟩)

/-- A CS_RISE answers a next state: the commit of a write transaction, or the deselect alone. -/
theorem csRise_cases (s : State) :
    (s.byteIdx ≠ 0 ∧ s.isWrite = true ∧ csRise s = .next (execStates s.commitAccesses s.deselect)) ∨
    ((s.byteIdx = 0 ∨ s.isWrite = false) ∧ csRise s = .next s.deselect) := by
  by_cases h : s.byteIdx ≠ 0 ∧ s.isWrite = true
  · exact .inl ⟨h.1, h.2, by rw [csRise, if_pos h, execAll_eq]⟩
  · refine .inr ⟨?_, by rw [csRise, if_neg h]⟩
    by_cases h0 : s.byteIdx = 0
    · exact .inl h0
    · exact .inr (by simpa [h0] using h)

end Sys2Proof.Machine
end

