-- ==== Sys2Proof/Laws/Access.lean ====
section
/-! SUPPORT. Which instruction each access word is, and what a read access and a write access change: one lemma for each
kind of state. -/
namespace Sys2Proof.Machine

/-- The instruction of a read access, by its address (R73). -/
theorem decodeRead_cases (a : RegAddr) :
    (a = 0x2D#7 ∧ decodeRead (accessWord true a) = .rdIntStatus) ∨
    (a = 0x30#7 ∧ decodeRead (accessWord true a) = .rdFifoData) ∨
    (a ≠ 0x2D#7 ∧ a ≠ 0x30#7 ∧ decodeRead (accessWord true a) = .rdReg a) := by
  revert a
  decide

/-- The write access words with a rule of their own. -/
theorem accessWord_write_eq : ∀ a : RegAddr, (accessWord false a = 0x76#8 ↔ a = 0x76#7) ∧
    (accessWord false a = 0x50#8 ↔ a = 0x50#7) ∧ (accessWord false a = 0x30#8 ↔ a = 0x30#7) := by
  decide

/-- The instruction of a write access, by its address (R73). -/
theorem decodeWrite_cases (a : RegAddr) (v : Byte) :
    (a = 0x76#7 ∧ decodeWrite (accessWord false a) v = .wrRegBankSel v) ∨
    (a = 0x50#7 ∧ decodeWrite (accessWord false a) v = .wrAccelConfig0 v) ∨
    (a = 0x30#7 ∧ decodeWrite (accessWord false a) v = .wrFifoData v) ∨
    (a ≠ 0x76#7 ∧ a ≠ 0x50#7 ∧ a ≠ 0x30#7 ∧ decodeWrite (accessWord false a) v = .wrReg a v) := by
  obtain ⟨h1, h2, h3⟩ := accessWord_write_eq a
  unfold decodeWrite
  simp only [h1, h2, h3, addrField_accessWord]
  by_cases a1 : a = 0x76#7
  · exact .inl ⟨a1, if_pos a1⟩
  by_cases a2 : a = 0x50#7
  · exact .inr (.inl ⟨a2, by rw [if_neg a1, if_pos a2]⟩)
  by_cases a3 : a = 0x30#7
  · exact .inr (.inr (.inl ⟨a3, by rw [if_neg a1, if_neg a2, if_pos a3]⟩))
  · exact .inr (.inr (.inr ⟨a1, a2, a3, by rw [if_neg a1, if_neg a2, if_neg a3]⟩))

/-- Every read access changes register cells and the FIFO's read side alone, and answers one byte. -/
theorem readAccess_eq (a : RegAddr) (s : State) :
    ∃ reg r c v, execState (decodeRead (accessWord true a)) s =
      { s with reg := reg, fifoR := r, fifoCnt := c, miso := v :: s.miso } := by
  rcases decodeRead_cases a with ⟨_, e⟩ | ⟨_, e⟩ | ⟨_, _, e⟩ <;> rw [e] <;> unfold execState State.gateRead <;> simp only
  · split_ifs <;> exact ⟨_, _, _, _, rfl⟩
  · split_ifs
    · obtain ⟨reg, r, c, e⟩ := State.pop_eq s
      rw [e]
      exact ⟨_, _, _, _, rfl⟩
    · exact ⟨_, _, _, _, rfl⟩
  · split_ifs <;> exact ⟨_, _, _, _, rfl⟩

/-- Every write access changes register cells, BANK and the timer alone. -/
theorem writeAccess_eq (a : RegAddr) (v : Byte) (s : State) :
    ∃ reg b p n, execState (decodeWrite (accessWord false a) v) s =
      { s with reg := reg, bank := b, tmrPeriod := p, tmrNext := n } := by
  rcases decodeWrite_cases a v with ⟨_, e⟩ | ⟨_, e⟩ | ⟨_, e⟩ | ⟨_, _, _, e⟩ <;> rw [e] <;>
    unfold execState State.gateWrite <;> simp only
  · exact ⟨_, _, _, _, rfl⟩
  · split_ifs
    · unfold State.writeOdr
      rw [State.timerReconfigure_eq]
      exact ⟨_, _, _, _, rfl⟩
    · exact ⟨_, _, _, _, rfl⟩
  · split_ifs <;> exact ⟨_, _, _, _, rfl⟩
  · split_ifs <;> exact ⟨_, _, _, _, rfl⟩

/-- BANK after a write access (R84, R86). -/
theorem writeAccess_bank (a : RegAddr) (v : Byte) (s : State) :
    (execState (decodeWrite (accessWord false a) v) s).bank = if a = 0x76#7 then v else s.bank := by
  rcases decodeWrite_cases a v with ⟨h, e⟩ | ⟨h, e⟩ | ⟨h, e⟩ | ⟨h, _, _, e⟩ <;> rw [e] <;>
    unfold execState State.gateWrite <;> simp only
  · rw [if_pos h]
    rfl
  · subst h
    rw [if_neg (show ¬(0x50#7 = 0x76#7) by decide)]
    split_ifs
    · unfold State.writeOdr
      rw [State.timerReconfigure_eq]
      rfl
    · rfl
  · subst h
    rw [if_neg (show ¬(0x30#7 = 0x76#7) by decide)]
    split_ifs <;> rfl
  · rw [if_neg h]
    split_ifs <;> rfl

/-- Every register cell after a write access (R84 to R88). -/
theorem writeAccess_regAt (a b : RegAddr) (v : Byte) (s : State) :
    (execState (decodeWrite (accessWord false a) v) s).regAt b =
      if s.bank = 0 ∧ b = a ∧ a ≠ 0x76#7 ∧ a ≠ 0x30#7 then v else s.regAt b := by
  rcases decodeWrite_cases a v with ⟨h, e⟩ | ⟨h, e⟩ | ⟨h, e⟩ | ⟨h, h2, h3, e⟩ <;> rw [e] <;>
    unfold execState State.gateWrite <;> simp only
  · simp [h]
  · by_cases hb : s.bank = 0#8
    · rw [if_pos hb]
      unfold State.writeOdr
      rw [State.timerReconfigure_eq]
      show (s.writeReg _ _).regAt _ = _
      subst h
      by_cases h2 : b = 0x50#7 <;> simp [hb, h2]
    · rw [if_neg hb, if_neg]
      tauto
  · simp [h]
  · by_cases hb : s.bank = 0#8
    · rw [if_pos hb]
      by_cases h4 : b = a <;> simp [hb, h4, h, h3]
    · rw [if_neg hb, if_neg]
      tauto

/-- UpdateCount leaves every cell but INT_STATUS and the count pair. -/
theorem State.updateCount_regAt_other (s : State) {b : RegAddr} (h1 : b ≠ 0x2D#7) (h2 : b ≠ 0x2E#7) (h3 : b ≠ 0x2F#7) :
    s.updateCount.regAt b = s.regAt b := by
  rw [State.updateCount_regAt, if_neg h2, if_neg h3, if_neg h1]

/-- A read access leaves every cell but INT_STATUS and the count pair. -/
theorem readAccess_regAt_other (a : RegAddr) (s : State) {b : RegAddr} (h1 : b ≠ 0x2D#7) (h2 : b ≠ 0x2E#7)
    (h3 : b ≠ 0x2F#7) : (execState (decodeRead (accessWord true a)) s).regAt b = s.regAt b := by
  rcases decodeRead_cases a with ⟨_, e⟩ | ⟨_, e⟩ | ⟨_, _, e⟩ <;> rw [e] <;> unfold execState State.gateRead <;> simp only
  · split_ifs
    · show (s.writeReg _ _).regAt b = _
      simp [h1]
    · rfl
  · split_ifs
    · show s.pop.2.regAt b = _
      by_cases hc : s.fifoCnt = 0
      · rw [State.pop_empty hc]
      · rw [State.pop_nonempty hc]
        exact State.updateCount_regAt_other s.takeOne h1 h2 h3
    · rfl
  · split_ifs <;> rfl

end Sys2Proof.Machine
end

