-- ==== Sys2Proof/Laws/Timer.lean ====
section
/-! SUPPORT. What the sample timer's operations and a tick change, said once; the rates an ODR table may hold. -/
namespace Sys2Proof.Machine

/-- The bounds of FIFO_CAP (R5). -/
theorem fifoCap_bounds {p : Params} (h : p.ok = true) : 16 ≤ p.fifoCap ∧ p.fifoCap ≤ 16 * 65535 := by
  unfold Params.ok at h
  simp only [Bool.and_eq_true, decide_eq_true_eq] at h
  exact h.1.1.1.1.1

/-- The rate of the ODR code of a byte is the table's entry at its low four bits (R104). -/
theorem odrTable_getElem? (p : Params) (v : Byte) : p.odrTable[v.toNat % 16]? = some (Params.rate p (odrCode v)) := by
  have : (odrCode v).toNat = v.toNat % 16 := by simp [odrCode, BitVec.extractLsb'_toNat]
  unfold Params.rate
  rw [Vector.getElem?_eq_getElem (by omega)]
  congr 1

/-- A code with a rate restarts the timer (R106). -/
theorem State.timerReconfigure_some {s : State} {c : BitVec 4} {r : Nat} (h : Params.rate s.par c = some r) :
    s.timerReconfigure c = s.setTimer (some (10 ^ 12 / r)) (s.now + 10 ^ 12 / r) := by
  unfold State.timerReconfigure
  rw [h]
  rfl

/-- A code without a rate changes nothing (R106). -/
theorem State.timerReconfigure_none {s : State} {c : BitVec 4} (h : Params.rate s.par c = none) :
    s.timerReconfigure c = s := by
  unfold State.timerReconfigure
  rw [h]

/-- The re-arm changes TMR_NEXT alone (R97). -/
theorem State.rearm_eq {s : State} {p : Nat} (h : s.tmrPeriod = some p) :
    s.rearm = { s with tmrNext := s.tmrNext + p } := by
  unfold State.rearm
  rw [h]
  simp [State.setTimer]

@[simp] theorem State.rearm_regAt (s : State) (b : RegAddr) : s.rearm.regAt b = s.regAt b := by
  unfold State.rearm
  split <;> rfl

/-- Push before its count refresh (R90). -/
theorem State.countIn_regAt_other (s : State) (buf : List Byte) {b : RegAddr} (h : b ≠ 0x2D#7) :
    ((s.copyIn buf).countIn buf.length).regAt b = s.regAt b := by
  unfold State.countIn State.pushOverflow
  split_ifs
  · rw [State.raiseFlag_regAt, if_neg h]
    rfl
  · rfl

/-- A tick changes register cells, the FIFO and TMR_NEXT alone (R97, R98). -/
theorem State.tick_eq (s : State) (d : AxisDraws) :
    ∃ reg m w r c n, s.tick d =
      { s with reg := reg, fifoMem := m, fifoW := w, fifoR := r, fifoCnt := c, tmrNext := n } := by
  have h : s.rearm = { s with tmrNext := s.rearm.tmrNext } := by
    unfold State.rearm
    split
    · rfl
    · rename_i hp
      simp [State.setTimer, hp]
  unfold State.tick
  split_ifs
  · rw [State.push_eq, h]
    exact ⟨_, _, _, _, _, _, rfl⟩
  · rw [h]
    exact ⟨_, _, _, _, _, _, rfl⟩

/-- A tick leaves every cell but INT_STATUS and the count pair. -/
theorem State.tick_regAt_other (s : State) (d : AxisDraws) {b : RegAddr} (h1 : b ≠ 0x2D#7) (h2 : b ≠ 0x2E#7)
    (h3 : b ≠ 0x2F#7) : (s.tick d).regAt b = s.regAt b := by
  unfold State.tick
  split_ifs
  · rw [State.push, State.updateCount_regAt_other _ h1 h2 h3, State.countIn_regAt_other _ _ h1, State.rearm_regAt]
  · exact State.rearm_regAt s b

/-- An anomalous exchange changes the outputs alone (R120). -/
theorem State.anomaly_eq (s : State) (w : Nat) :
    ∃ out n, s.anomaly w = { s with miso := out, diag := .badExchangeWidth :: s.diag, draws := n } := by
  obtain ⟨out, _, he⟩ := State.respondFreeMany_spec w (s.report .badExchangeWidth)
  exact ⟨out ++ s.miso, s.draws + w, by rw [State.anomaly, he]; rfl⟩

end Sys2Proof.Machine
end

