-- ==== Sys2Proof/Laws/Step.lean ====
section
/-! SUPPORT. What a step can do, said once: it waits and asks the host, or it delivers one admitted event whose handling answers the next
state. -/
namespace Sys2Proof.Machine

/-- A step with no event at hand only asks the host. -/
theorem step_nil {s : State} (h : s.inbox = []) : step s = .next s.askHost := by
  unfold step
  rw [h]

/-- A step with an event to come delivers it. -/
theorem step_cons {s : State} {d : Delivery} {rest : List Delivery} (h : s.inbox = d :: rest) :
    step s = deliver d rest s := by
  unfold step
  rw [h]

/-- An admitted event is handled, with NOW its moment. -/
theorem deliver_unbroken {s : State} {d : Delivery} {rest : List Delivery} (h : s.brokenDuty d = none) :
    deliver d rest s = handle d.event (s.arrive d.now rest) := by
  unfold deliver
  rw [h]

/-- Handling any event answers a next state: the block never stops by itself (R123). -/
theorem handle_next (e : Event) (s : State) : ∃ t, handle e s = .next t := by
  cases e with
  | csFall => exact ⟨_, rfl⟩
  | csRise =>
    rcases csRise_cases s with ⟨_, _, h⟩ | ⟨_, h⟩
    · exact ⟨_, h⟩
    · exact ⟨_, h⟩
  | beat b =>
    rcases beat_cases b s with ⟨_, h⟩ | ⟨_, _, h⟩ | ⟨_, _, _, h⟩ | ⟨_, _, h⟩
    · exact ⟨_, h⟩
    · exact ⟨_, h⟩
    · exact ⟨_, h⟩
    · exact ⟨_, h⟩
  | xferAnomaly w => exact ⟨_, rfl⟩
  | tick d => exact ⟨_, rfl⟩
  | setAmp which q => exact ⟨_, rfl⟩

/-- The inversion of a step. -/
theorem step_cases {s t : State} (h : step s = .next t) :
    (s.inbox = [] ∧ t = s.askHost) ∨
    ∃ d rest, s.inbox = d :: rest ∧ s.brokenDuty d = none ∧ handle d.event (s.arrive d.now rest) = .next t := by
  cases hs : s.inbox with
  | nil =>
    rw [step_nil hs] at h
    cases h
    exact .inl ⟨rfl, rfl⟩
  | cons d rest =>
    rw [step_cons hs] at h
    unfold deliver at h
    cases ha : s.brokenDuty d with
    | none => rw [ha] at h; exact .inr ⟨d, rest, rfl, ha, h⟩
    | some r => rw [ha] at h; cases h

/-- The step for an event that the host offers under its duties. -/
theorem offers_step {s : State} {now : Nat} {e : Event} {rest : List Delivery} (h : s.Offers now e rest) :
    step s = handle e (s.arrive now rest) := by
  obtain ⟨hi, h1, h2, h3⟩ := h
  rw [step_cons hi, deliver_unbroken]
  unfold State.brokenDuty
  simp only at h1 h2 h3 ⊢
  rw [if_neg (by omega), if_neg]
  · cases e with
    | csFall => simp [h3]
    | csRise => simp [h3]
    | beat b => simp [h3]
    | xferAnomaly w => simp [h3]
    | tick d => obtain ⟨⟨p, hp⟩, hn⟩ := h3; simp [hp, hn]
    | setAmp w q => simp [Config.ampInRange, h3]
  · cases hp : s.tmrPeriod with
    | none => simp
    | some p => have := h2 p hp; simp; omega

/-- An admitted event meets the host's duties. -/
theorem duties_of_unbroken {s : State} {d : Delivery} (h : s.brokenDuty d = none) : s.DutiesMet d := by
  unfold State.brokenDuty at h
  split at h
  · cases h
  split at h
  · cases h
  rename_i h1 h2
  refine ⟨by omega, ?_, ?_⟩
  · intro p hp
    simp [hp] at h2
    omega
  · cases hd : d.event with
    | csFall => simp [hd] at h ⊢; simpa using h
    | csRise => simp [hd] at h ⊢; simpa using h
    | beat b => simp [hd] at h ⊢; simpa using h
    | xferAnomaly w =>
      simp only [hd] at h ⊢
      cases hs : s.sel <;> simp [hs] at h ⊢
      exact h
    | tick d =>
      simp only [hd] at h ⊢
      cases hp : s.tmrPeriod <;> simp [hp] at h ⊢
      exact h
    | setAmp w q =>
      simp only [hd] at h ⊢
      simpa [Config.ampInRange] using h

/-- The commit of a write transaction: no access, one, or two (R118). -/
theorem commit_cases {s : State} (h0 : s.byteIdx ≠ 0) :
    (s.byteIdx = 1 ∧ execStates s.commitAccesses s.deselect = s.deselect) ∨
    (s.byteIdx = 2 ∧ execStates s.commitAccesses s.deselect = execState (s.commitAccess 0) s.deselect) ∨
    (3 ≤ s.byteIdx ∧ execStates s.commitAccesses s.deselect =
      execState (s.commitAccess 1) (execState (s.commitAccess 0) s.deselect)) := by
  rcases Nat.lt_or_ge s.byteIdx 3 with h | h
  · have : s.byteIdx = 1 ∨ s.byteIdx = 2 := by omega
    rcases this with h | h
    · have : s.commitCount = 0 := by simp [State.commitCount, h]
      exact .inl ⟨h, by simp [State.commitAccesses, this, execStates]⟩
    · have : s.commitCount = 1 := by simp [State.commitCount, h]
      exact .inr (.inl ⟨h, by simp [State.commitAccesses, this, execStates]⟩)
  · have : s.commitCount = 2 := by simp [State.commitCount, Config.stageDataCap]; omega
    exact .inr (.inr ⟨h, by simp [State.commitAccesses, this, execStates, List.range_succ]⟩)

/-- Every way a step from s can answer a next state, with that state. -/
inductive StepKind (s : State) : State → Prop
  /-- no event at hand: the block waits and the host is asked (R16) -/
  | wait : s.inbox = [] → StepKind s s.askHost
  /-- CS_FALL (R111) -/
  | fall (now : Nat) (rest : List Delivery) : s.inbox = { now := now, event := .csFall } :: rest → s.sel = false →
      StepKind s (s.arrive now rest).select
  /-- CS_RISE without a write access (R118, R119) -/
  | rise (now : Nat) (rest : List Delivery) : s.inbox = { now := now, event := .csRise } :: rest → s.sel = true →
      StepKind s (s.arrive now rest).deselect
  /-- CS_RISE with one write access (R118) -/
  | commitOne (now : Nat) (rest : List Delivery) : s.inbox = { now := now, event := .csRise } :: rest → s.sel = true →
      s.isWrite = true → 2 ≤ s.byteIdx →
      StepKind s (execState ((s.arrive now rest).commitAccess 0) (s.arrive now rest).deselect)
  /-- CS_RISE with two write accesses (R118) -/
  | commitTwo (now : Nat) (rest : List Delivery) : s.inbox = { now := now, event := .csRise } :: rest → s.sel = true →
      s.isWrite = true → 3 ≤ s.byteIdx →
      StepKind s (execState ((s.arrive now rest).commitAccess 1)
        (execState ((s.arrive now rest).commitAccess 0) (s.arrive now rest).deselect))
  /-- the command beat (R112) -/
  | command (now : Nat) (rest : List Delivery) (b : Byte) : s.inbox = { now := now, event := .beat b } :: rest →
      s.byteIdx = 0 → StepKind s (execState (decodeCommand b) (s.arrive now rest))
  /-- a read data beat (R113) -/
  | read (now : Nat) (rest : List Delivery) (b : Byte) : s.inbox = { now := now, event := .beat b } :: rest →
      s.byteIdx ≠ 0 → s.isWrite = false →
      StepKind s (execState (decodeRead (accessWord true s.regAddr)) (s.arrive now rest)).advanceRead
  /-- a staged write data beat (R114) -/
  | staged (now : Nat) (rest : List Delivery) (b : Byte) : s.inbox = { now := now, event := .beat b } :: rest →
      s.byteIdx ≠ 0 → s.isWrite = true → s.byteIdx ≤ 2 → StepKind s ((s.arrive now rest).stageBeat b)
  /-- an excess write byte (R117) -/
  | excess (now : Nat) (rest : List Delivery) (b : Byte) : s.inbox = { now := now, event := .beat b } :: rest →
      s.isWrite = true → 2 < s.byteIdx → StepKind s (s.arrive now rest).excessBeat
  /-- an anomalous exchange (R120) -/
  | anomaly (now : Nat) (rest : List Delivery) (w : Nat) : s.inbox = { now := now, event := .xferAnomaly w } :: rest →
      StepKind s ((s.arrive now rest).anomaly w)
  /-- a tick (R97) -/
  | tick (now : Nat) (rest : List Delivery) (d : AxisDraws) (p : Nat) :
      s.inbox = { now := now, event := .tick d } :: rest → s.tmrPeriod = some p → now = s.tmrNext →
      StepKind s ((s.arrive now rest).tick d)
  /-- SET_AMP (R108) -/
  | amp (now : Nat) (rest : List Delivery) (w : AmpSel) (q : Rat) :
      s.inbox = { now := now, event := .setAmp w q } :: rest → StepKind s ((s.arrive now rest).writeAmp w q)

/-- What a step can do, said once. -/
theorem step_kind {s t : State} (h : step s = .next t) : StepKind s t := by
  rcases step_cases h with ⟨hi, rfl⟩ | ⟨⟨now, e⟩, rest, hi, ha, hh⟩
  · exact .wait hi
  have hd := (duties_of_unbroken ha).2.2
  cases e with
  | csFall => cases hh; exact .fall _ _ hi hd
  | csRise =>
    have hh : csRise (s.arrive now rest) = .next t := hh
    rcases csRise_cases (s.arrive now rest) with ⟨h1, h2, h⟩ | ⟨_, h⟩
    · rw [h] at hh
      cases hh
      rcases commit_cases h1 with ⟨_, e⟩ | ⟨h3, e⟩ | ⟨h3, e⟩
      · rw [e]; exact .rise _ _ hi hd
      · rw [e]; exact .commitOne _ _ hi hd h2 (by rw [State.arrive_byteIdx] at h3; omega)
      · rw [e]; exact .commitTwo _ _ hi hd h2 h3
    · rw [h] at hh
      cases hh
      exact .rise _ _ hi hd
  | beat b =>
    have hh : beat b (s.arrive now rest) = .next t := hh
    rcases beat_cases b (s.arrive now rest) with ⟨h1, h⟩ | ⟨h1, h2, h⟩ | ⟨h1, h2, h3, h⟩ | ⟨h1, h2, h⟩
    · rw [h] at hh; cases hh; exact .command _ _ _ hi h1
    · rw [h] at hh; cases hh; exact .read _ _ _ hi h1 h2
    · rw [h] at hh; cases hh; exact .staged _ _ _ hi h1 h2 h3
    · rw [h] at hh; cases hh; exact .excess _ _ _ hi h2 h1
  | xferAnomaly w => cases hh; exact .anomaly _ _ _ hi
  | tick d =>
    cases hh
    obtain ⟨⟨p, hp⟩, hn⟩ := hd
    exact .tick _ _ _ _ hi hp hn
  | setAmp w q => cases hh; exact .amp _ _ _ _ hi

/-- A run of one more step. -/
theorem run_succ (k : Nat) (s t : State) : Host.Core.run core (k + 1) s = .next t ↔
    ∃ u, step s = .next u ∧ Host.Core.run core k u = .next t := by
  have run_any : ∀ (M : Host.Core) (s t : M.State), Host.Core.run M (k + 1) s = .next t ↔
      ∃ u, M.step s = .next u ∧ Host.Core.run M k u = .next t := by
    intro M s t
    cases h : M.step s with
    | next s' => simp [Host.Core.run, h]
    | fault f => simp [Host.Core.run, h]
    | refused r => simp [Host.Core.run, h]
  exact run_any core s t

end Sys2Proof.Machine
end

