-- ==== Sys2Proof/Laws/Inbox.lean ====
section
/-! SUPPORT. No event reads or writes what the host still has to deliver: every operation commutes with setting the inbox
and the count of askings. -/
namespace Sys2Proof.Machine

/-- s with l still to be delivered, and the host asked n times. -/
def State.withInbox (l : List Delivery) (n : Nat) (s : State) : State := { s with inbox := l, asked := n }

variable (l : List Delivery) (n : Nat)

theorem State.withInbox_self (s : State) : s.withInbox s.inbox s.asked = s := rfl

theorem State.gateWrite_withInbox (s : State) {k : State → State}
    (h : k (s.withInbox l n) = (k s).withInbox l n) : (s.withInbox l n).gateWrite k = (s.gateWrite k).withInbox l n := by
  unfold State.gateWrite
  rw [apply_ite (State.withInbox l n), ← h]
  rfl

/-- A gated read, with the byte it gives on MISO. -/
theorem State.gateRead_withInbox (s : State) {k : State → Byte × State}
    (h : k (s.withInbox l n) = ((k s).1, (k s).2.withInbox l n)) :
    (s.withInbox l n).gateRead k = ((s.gateRead k).1, (s.gateRead k).2.withInbox l n) := by
  unfold State.gateRead
  by_cases hb : s.bank = 0#8
  · rw [if_pos hb, if_pos (show (s.withInbox l n).bank = 0#8 from hb), h]
  · rw [if_neg hb, if_neg (show ¬ (s.withInbox l n).bank = 0#8 from hb)]

theorem State.updateCount_withInbox (s : State) : (s.withInbox l n).updateCount = s.updateCount.withInbox l n := by
  unfold State.updateCount State.testWatermark
  rw [apply_ite (State.withInbox l n)]
  rfl

theorem State.push_withInbox (s : State) (buf : List Byte) :
    (s.withInbox l n).push buf = (s.push buf).withInbox l n := by
  unfold State.push State.countIn
  rw [← State.updateCount_withInbox, apply_ite (State.withInbox l n)]
  rfl

theorem State.pop_withInbox (s : State) : (s.withInbox l n).pop = (s.pop.1, s.pop.2.withInbox l n) := by
  by_cases h : s.fifoCnt = 0
  · rw [State.pop_empty h, State.pop_empty (s := s.withInbox l n) h]
  · rw [State.pop_nonempty h, State.pop_nonempty (s := s.withInbox l n) h, ← State.updateCount_withInbox]
    rfl

theorem State.tick_withInbox (s : State) (d : AxisDraws) : (s.withInbox l n).tick d = (s.tick d).withInbox l n := by
  have hr : (s.withInbox l n).rearm = s.rearm.withInbox l n := by
    unfold State.rearm
    rw [show (s.withInbox l n).tmrPeriod = s.tmrPeriod from rfl]
    cases s.tmrPeriod <;> rfl
  unfold State.tick
  rw [apply_ite (State.withInbox l n), ← State.push_withInbox, hr]
  rfl

theorem State.writeOdr_withInbox (s : State) (v : Byte) :
    State.writeOdr v (s.withInbox l n) = (State.writeOdr v s).withInbox l n := by
  unfold State.writeOdr State.timerReconfigure
  rw [show ((s.withInbox l n).writeReg Config.accelConfig0 v).par = s.par from rfl,
    show (s.writeReg Config.accelConfig0 v).par = s.par from rfl]
  cases Params.rate s.par (odrCode v) <;> rfl

theorem State.respondFreeMany_withInbox (k : Nat) (s : State) :
    State.respondFreeMany k (s.withInbox l n) = (State.respondFreeMany k s).withInbox l n := by
  induction k generalizing s with
  | zero => rfl
  | succ k ih => exact ih s.respondFree

/-- No instruction reads or writes the inbox. -/
theorem execState_withInbox (i : Instr) (s : State) :
    execState i (s.withInbox l n) = (execState i s).withInbox l n := by
  have read : ∀ {k : State → Byte × State}, k (s.withInbox l n) = ((k s).1, (k s).2.withInbox l n) →
      State.respond ((s.withInbox l n).gateRead k).2 ((s.withInbox l n).gateRead k).1 =
        (State.respond (s.gateRead k).2 (s.gateRead k).1).withInbox l n := by
    intro k h
    rw [State.gateRead_withInbox l n s h]
    rfl
  cases i with
  | rd a => rfl
  | wr a => rfl
  | rdIntStatus => exact read rfl
  | rdFifoData => exact read (State.pop_withInbox l n s)
  | rdReg a => exact read rfl
  | wrRegBankSel v => rfl
  | wrAccelConfig0 v => exact State.gateWrite_withInbox l n s (State.writeOdr_withInbox l n s v)
  | wrFifoData v => exact State.gateWrite_withInbox l n s rfl
  | wrReg a v => exact State.gateWrite_withInbox l n s (k := fun t => t.writeReg a v) rfl

theorem execStates_withInbox (is : List Instr) (s : State) :
    execStates is (s.withInbox l n) = (execStates is s).withInbox l n := by
  induction is generalizing s with
  | nil => rfl
  | cons i rest ih =>
    show execStates rest (execState i (s.withInbox l n)) = _
    rw [execState_withInbox, ih]
    rfl

theorem csRise_withInbox (s : State) :
    csRise (s.withInbox l n) = andThen (csRise s) (fun t => .next (t.withInbox l n)) := by
  unfold csRise
  by_cases h : s.byteIdx ≠ 0 ∧ s.isWrite = true
  · rw [if_pos h, if_pos (show (s.withInbox l n).byteIdx ≠ 0 ∧ (s.withInbox l n).isWrite = true from h), execAll_eq,
      execAll_eq]
    exact congrArg Host.Outcome.next (execStates_withInbox l n s.commitAccesses s.deselect)
  · rw [if_neg h, if_neg (show ¬ ((s.withInbox l n).byteIdx ≠ 0 ∧ (s.withInbox l n).isWrite = true) from h)]
    rfl

theorem beat_withInbox (b : Byte) (s : State) :
    beat b (s.withInbox l n) = andThen (beat b s) (fun t => .next (t.withInbox l n)) := by
  unfold beat
  rw [show (s.withInbox l n).byteIdx = s.byteIdx from rfl, show (s.withInbox l n).isWrite = s.isWrite from rfl]
  split_ifs
  · rw [exec_eq_execState, exec_eq_execState, execState_withInbox]
    rfl
  · rw [readBeat_eq, readBeat_eq, execState_withInbox]
    rfl
  · rfl
  · rfl

/-- Handling an event neither reads nor writes what comes after it. -/
theorem handle_withInbox (e : Event) (s : State) :
    handle e (s.withInbox l n) = andThen (handle e s) (fun t => .next (t.withInbox l n)) := by
  cases e with
  | csFall => rfl
  | csRise => exact csRise_withInbox l n s
  | beat b => exact beat_withInbox l n b s
  | xferAnomaly w =>
    exact congrArg Host.Outcome.next (State.respondFreeMany_withInbox l n w (s.report .badExchangeWidth))
  | tick d => exact congrArg Host.Outcome.next (State.tick_withInbox l n s d)
  | setAmp which q => cases which <;> rfl

/-- Handling an event leaves the inbox and the count of askings. -/
theorem handle_keeps_inbox {e : Event} {s t : State} (h : handle e s = .next t) :
    t.inbox = s.inbox ∧ t.asked = s.asked := by
  have hs := handle_withInbox s.inbox s.asked e s
  rw [State.withInbox_self, h] at hs
  have ht : t = t.withInbox s.inbox s.asked := by injection hs
  exact ⟨(congrArg State.inbox ht :), (congrArg State.asked ht :)⟩

/-- A step asks the host, or takes one event off the inbox. -/
theorem step_inbox {s t : State} (h : step s = .next t) :
    (s.inbox = [] ∧ t = s.askHost) ∨ ∃ d, s.inbox = d :: t.inbox ∧ t.asked = s.asked := by
  rcases step_cases h with h | ⟨d, rest, hi, _, hh⟩
  · exact .inl h
  · obtain ⟨h1, h2⟩ := handle_keeps_inbox hh
    exact .inr ⟨d, by rw [h1]; exact hi, h2⟩

end Sys2Proof.Machine
end

