-- ==== Sys2Proof/Laws/PerInstr.lean ====
section
/-! SUPPORT. A per-instruction statement about the syntax: the first byte of a well-formed instruction lies in its own row of
the opcode table and in no row that takes precedence over it, and the instruction has its row's length. -/
namespace Sys2Proof.Laws

/-- One row of spec/opcode_table.json: its match, its mask and the data bytes that follow the word. -/
structure Row where
  bits : Byte
  mask : Byte
  dataBytes : Nat
  deriving DecidableEq, Repr

/-- The row of an instruction, transcribed from spec/opcode_table.json. -/
def Row.of (i : Instr) : Row :=
  match i with
  | .rd _ => { bits := 0x80#8, mask := 0x80#8, dataBytes := 0 }
  | .wr _ => { bits := 0x00#8, mask := 0x80#8, dataBytes := 0 }
  | .rdIntStatus => { bits := 0xAD#8, mask := 0xFF#8, dataBytes := 0 }
  | .rdFifoData => { bits := 0xB0#8, mask := 0xFF#8, dataBytes := 0 }
  | .rdReg _ => { bits := 0x80#8, mask := 0x80#8, dataBytes := 0 }
  | .wrRegBankSel _ => { bits := 0x76#8, mask := 0xFF#8, dataBytes := 1 }
  | .wrAccelConfig0 _ => { bits := 0x50#8, mask := 0xFF#8, dataBytes := 1 }
  | .wrFifoData _ => { bits := 0x30#8, mask := 0xFF#8, dataBytes := 1 }
  | .wrReg _ _ => { bits := 0x00#8, mask := 0x80#8, dataBytes := 1 }

/-- The access words with a row of mask 0xFF (R73). -/
def specificWords : List Byte := [0xAD#8, 0xB0#8, 0x76#8, 0x50#8, 0x30#8]

/-- The first byte of the encoding matches the row; a row of mask 0x80 of the access phase has none of the words that a
row of mask 0xFF takes (R72); and the encoding is the word and its data byte. -/
def RowMatch.Statement (i : Instr) : Prop :=
  i.wellFormed = true →
    ∃ w rest, encode i = w :: rest ∧ w &&& (Row.of i).mask = (Row.of i).bits ∧ rest.length = (Row.of i).dataBytes ∧
      (i.phase = .access → (Row.of i).mask = 0x80#8 → w ∉ specificWords)

/-- The generic read words, by address. -/
theorem readWord_row : ∀ a : RegAddr, accessWord true a &&& 0x80#8 = 0x80#8 ∧
    (a ≠ 0x2D#7 → a ≠ 0x30#7 → accessWord true a ∉ specificWords) := by
  decide

/-- The generic write words, by address. -/
theorem writeWord_row : ∀ a : RegAddr, accessWord false a &&& 0x80#8 = 0x00#8 ∧
    (a ≠ 0x30#7 → a ≠ 0x50#7 → a ≠ 0x76#7 → accessWord false a ∉ specificWords) := by
  decide

theorem RowMatch.rd (addr : RegAddr) : RowMatch.Statement (.rd addr) := fun _ =>
  ⟨_, [], rfl, (readWord_row addr).1, rfl, fun h => by cases h⟩

theorem RowMatch.wr (addr : RegAddr) : RowMatch.Statement (.wr addr) := fun _ =>
  ⟨_, [], rfl, (writeWord_row addr).1, rfl, fun h => by cases h⟩

theorem RowMatch.rdIntStatus : RowMatch.Statement .rdIntStatus := fun _ =>
  ⟨_, [], rfl, by decide, rfl, fun _ h => absurd h (by decide)⟩

theorem RowMatch.rdFifoData : RowMatch.Statement .rdFifoData := fun _ =>
  ⟨_, [], rfl, by decide, rfl, fun _ h => absurd h (by decide)⟩

theorem RowMatch.rdReg (addr : RegAddr) : RowMatch.Statement (.rdReg addr) := fun hw => by
  simp only [Instr.wellFormed, Bool.and_eq_true, bne_iff_ne] at hw
  exact ⟨_, [], rfl, (readWord_row addr).1, rfl, fun _ _ => (readWord_row addr).2 hw.1 hw.2⟩

theorem RowMatch.wrRegBankSel (v : Byte) : RowMatch.Statement (.wrRegBankSel v) := fun _ =>
  ⟨_, [v], rfl, show 0x76#8 &&& 0xFF#8 = 0x76#8 by decide, rfl, fun _ h => absurd h (show ¬(0xFF#8 = 0x80#8) by decide)⟩

theorem RowMatch.wrAccelConfig0 (v : Byte) : RowMatch.Statement (.wrAccelConfig0 v) := fun _ =>
  ⟨_, [v], rfl, show 0x50#8 &&& 0xFF#8 = 0x50#8 by decide, rfl, fun _ h => absurd h (show ¬(0xFF#8 = 0x80#8) by decide)⟩

theorem RowMatch.wrFifoData (v : Byte) : RowMatch.Statement (.wrFifoData v) := fun _ =>
  ⟨_, [v], rfl, show 0x30#8 &&& 0xFF#8 = 0x30#8 by decide, rfl, fun _ h => absurd h (show ¬(0xFF#8 = 0x80#8) by decide)⟩

theorem RowMatch.wrReg (addr : RegAddr) (v : Byte) : RowMatch.Statement (.wrReg addr v) := fun hw => by
  simp only [Instr.wellFormed, Bool.and_eq_true, bne_iff_ne] at hw
  exact ⟨_, [v], rfl, (writeWord_row addr).1, rfl, fun _ _ => (writeWord_row addr).2 hw.1.1 hw.1.2 hw.2⟩

end Sys2Proof.Laws
end

