-- ==== Sys2Proof/Tests/Slice0.lean ====
section
/-! SUPPORT. The model's own tests: the well-formedness checks, decoding of words written out from the spec, single steps
whose expected values stand in spec/95_test_vectors.md, and for each statement with hypotheses a witness that meets them. -/
namespace Sys2Proof.Tests
open Sys2Proof.Machine

/-! ### Helpers -/

/-- S0 of 95_test_vectors.md: the reset state with the reference parameters, the timer stopped and amplitudes 0.0. -/
def s0 : State := { State.reset with par := Config.reference, tmrPeriod := none, tmrNext := 0, ampA := 0, ampG := 0 }

/-- s with one event offered. -/
def offer (s : State) (t : Nat) (e : Event) : State := { s with inbox := [{ now := t, event := e }] }

/-- A read transaction at address a with k beats done. -/
def reading (a : RegAddr) (k : Nat) (s : State) : State :=
  { s with sel := true, byteIdx := k, isWrite := false, regAddr := a, stage := #v[accessWord true a, 0, 0] }

/-- A write transaction from address a with k beats done and the data bytes v and w staged. -/
def writing (a : RegAddr) (v w : Byte) (k : Nat) (s : State) : State :=
  { s with sel := true, byteIdx := k, isWrite := true, regAddr := a, stage := #v[accessWord false a, v, w] }

/-- A register cell set. -/
def cell (a : RegAddr) (v : Byte) (s : State) : State := s.writeReg a v

/-- The FIFO's indices and fill level set. -/
def ring (w r cnt : Nat) (s : State) : State := { s with fifoW := w, fifoR := r, fifoCnt := cnt }

/-- The timer running with period p, its next tick at t. -/
def timed (p t : Nat) (s : State) : State := { s with tmrPeriod := some p, tmrNext := t }

/-- BANK set. -/
def banked (b : Byte) (s : State) : State := { s with bank := b }

/-- The outcome is a next state for which p holds. -/
def gives (o : Host.Outcome State Fault Refusal) (p : State → Bool) : Bool :=
  match o with
  | .next s => p s
  | .fault _ => false
  | .refused _ => false

/-- Six draws, all of them 0x1234. -/
def draws : AxisDraws := { ax := 0x1234#16, ay := 0x1234#16, az := 0x1234#16, gx := 0x1234#16, gy := 0x1234#16, gz := 0x1234#16 }

/-! ### WellFormed: an ill-formed term for each check (R73) -/

theorem test_wf_rdReg_intStatus : (Instr.rdReg 0x2D#7).wellFormed = false := by decide
theorem test_wf_rdReg_fifoData : (Instr.rdReg 0x30#7).wellFormed = false := by decide
theorem test_wf_wrReg_fifoData : (Instr.wrReg 0x30#7 0x11#8).wellFormed = false := by decide
theorem test_wf_wrReg_accelConfig0 : (Instr.wrReg 0x50#7 0x06#8).wellFormed = false := by decide
theorem test_wf_wrReg_regBankSel : (Instr.wrReg 0x76#7 0x01#8).wellFormed = false := by decide

/-! ### Decoding: words written out bit by bit from R66 and R73 -/

theorem test_decode_rd : decode .command [0b10101101#8] = .instr (.rd 0x2D#7) [] := by decide
theorem test_decode_wr : decode .command [0b01001110#8] = .instr (.wr 0x4E#7) [] := by decide
theorem test_decode_rdIntStatus : decode .access [0b10101101#8] = .instr .rdIntStatus [] := by decide
theorem test_decode_rdFifoData : decode .access [0b10110000#8] = .instr .rdFifoData [] := by decide
theorem test_decode_rdReg : decode .access [0b11111111#8] = .instr (.rdReg 0x7F#7) [] := by decide
theorem test_decode_wrRegBankSel : decode .access [0b01110110#8, 0x08#8] = .instr (.wrRegBankSel 0x08#8) [] := by decide
theorem test_decode_wrAccelConfig0 : decode .access [0b01010000#8, 0x16#8] = .instr (.wrAccelConfig0 0x16#8) [] := by decide
theorem test_decode_wrFifoData : decode .access [0b00110000#8, 0x11#8] = .instr (.wrFifoData 0x11#8) [] := by decide
theorem test_decode_wrReg : decode .access [0b01100000#8, 0x05#8] = .instr (.wrReg 0x60#7 0x05#8) [] := by decide
theorem test_decode_noByte : decode .access [] = .noByte := by decide
theorem test_decode_noDataByte : decode .access [0b01100000#8] = .noDataByte := by decide
theorem test_tableWord : decodeTableWord 8 0xAD = some .rdIntStatus ∧ decodeTableWord 8 0x50 = some (.wrAccelConfig0 0x00#8) := by
  decide

/-! ### The first step after reset with each access word in place -/

theorem test_first_rdIntStatus : gives (step (State.reset.withFetchWord 8 0xAD)) (fun s => s.byteIdx == 2) = true := by decide
theorem test_first_rdFifoData : gives (step (State.reset.withFetchWord 8 0xB0)) (fun s => s.byteIdx == 2) = true := by decide
theorem test_first_rdReg : gives (step (State.reset.withFetchWord 8 0x80)) (fun s => s.byteIdx == 2) = true := by decide
theorem test_first_wrRegBankSel : gives (step (State.reset.withFetchWord 8 0x76)) (fun s => !s.sel) = true := by decide
theorem test_first_wrAccelConfig0 : gives (step (State.reset.withFetchWord 8 0x50)) (fun _ => true) = true := by decide
theorem test_first_wrFifoData : gives (step (State.reset.withFetchWord 8 0x30)) (fun s => !s.sel) = true := by decide
theorem test_first_wrReg : gives (step (State.reset.withFetchWord 8 0x00)) (fun s => !s.sel) = true := by decide

/-! ### Single steps, with the expected values of 95_test_vectors.md -/

/-- RF3: INT_STATUS 0x06 reads as 0x06 and is cleared. -/
theorem test_rdIntStatus_clears :
    gives (exec .rdIntStatus (cell 0x2D#7 0x06#8 s0)) (fun s => s.miso == [0x06#8] && s.regAt 0x2D#7 == 0x00#8) = true := by
  decide

/-- RF4: in bank 1 it reads as 0x00 and keeps its value. -/
theorem test_rdIntStatus_other_bank :
    gives (exec .rdIntStatus (banked 1 (cell 0x2D#7 0x06#8 s0)))
      (fun s => s.miso == [0x00#8] && s.regAt 0x2D#7 == 0x06#8) = true := by
  decide

/-- F7: a pop at the ring's last byte wraps FIFO_R to 0. -/
theorem test_rdFifoData_wraps :
    gives (exec .rdFifoData (ring 0 2047 1 { s0 with fifoMem := [(2047, 0x68#8)] }))
      (fun s => s.miso == [0x68#8] && s.fifoR == 0 && s.fifoCnt == 0 && s.regAt 0x2E#7 == 0x00#8 &&
        s.regAt 0x2D#7 == 0x04#8) = true := by
  decide

/-- F5: a pop of the empty FIFO gives 0x80 and sets no flag although WM = 0. -/
theorem test_rdFifoData_empty :
    gives (exec .rdFifoData s0) (fun s => s.miso == [0x80#8] && s.regAt 0x2D#7 == 0x00#8) = true := by
  decide

/-- RF7: with BANK = 0x02 a read of 0x76 gives 0x00. -/
theorem test_rdReg_bankSel_other_bank :
    gives (exec (.rdReg 0x76#7) (banked 2 s0)) (fun s => s.miso == [0x00#8]) = true := by
  decide

/-- RF8: BANK takes the full byte 0x08, and the cell REG[0x76] stays 0x00. -/
theorem test_wrRegBankSel_full_byte :
    gives (exec (.wrRegBankSel 0x08#8) s0) (fun s => s.bank == 0x08#8 && s.regAt 0x76#7 == 0x00#8) = true := by
  decide

/-- RF12: 0x16 is code 6; at NOW = 5000 the next tick is due at 1005000. -/
theorem test_wrAccelConfig0_code6 :
    gives (exec (.wrAccelConfig0 0x16#8) { s0 with now := 5000 })
      (fun s => s.regAt 0x50#7 == 0x16#8 && s.tmrPeriod == some 1000000 && s.tmrNext == 1005000) = true := by
  decide

/-- RF13: code 0 stores the byte and leaves the timer. -/
theorem test_wrAccelConfig0_code0 :
    gives (exec (.wrAccelConfig0 0x00#8) (timed 1000000 2000000 (cell 0x50#7 0x06#8 s0)))
      (fun s => s.regAt 0x50#7 == 0x00#8 && s.tmrPeriod == some 1000000 && s.tmrNext == 2000000) = true := by
  decide

/-- RF15: a bus write to FIFO_DATA changes nothing. -/
theorem test_wrFifoData_discards :
    gives (exec (.wrFifoData 0x11#8) s0) (fun s => s.regAt 0x30#7 == 0x00#8 && s.fifoCnt == 0) = true := by
  decide

/-- RF9: in bank 3 a plain store is dropped. -/
theorem test_wrReg_other_bank :
    gives (exec (.wrReg 0x4E#7 0x02#8) (banked 3 s0)) (fun s => s.regAt 0x4E#7 == 0x00#8) = true := by
  decide

/-- T1: the command byte 0xAD latches a read at 0x2D and clears nothing. -/
theorem test_command_latches :
    gives (step (offer { cell 0x2D#7 0x04#8 s0 with sel := true } 0 (.beat 0xAD#8)))
      (fun s => !s.isWrite && s.regAddr == 0x2D#7 && s.byteIdx == 1 && s.regAt 0x2D#7 == 0x04#8) = true := by
  decide

/-- T5: two bytes committed from 0x7F go to 0x7F and to 0x00. -/
theorem test_commit_wraps :
    gives (step (offer (writing 0x7F#7 0xA1#8 0xB2#8 3 s0) 0 .csRise))
      (fun s => s.regAt 0x7F#7 == 0xA1#8 && s.regAt 0x00#7 == 0xB2#8 && !s.sel) = true := by
  decide

/-- T7: the commit does not pin at 0x30: the second byte goes to 0x31. -/
theorem test_commit_not_pinned :
    gives (step (offer (writing 0x30#7 0x11#8 0x22#8 3 s0) 0 .csRise))
      (fun s => s.regAt 0x31#7 == 0x22#8 && s.regAt 0x30#7 == 0x00#8) = true := by
  decide

/-- T13: BANK = 0x01 set by the first byte drops the second. -/
theorem test_commit_under_new_bank :
    gives (step (offer (writing 0x76#7 0x01#8 0x33#8 3 s0) 0 .csRise))
      (fun s => s.bank == 0x01#8 && s.regAt 0x77#7 == 0x00#8) = true := by
  decide

/-- T6: with BYTE_IDX = 4 two bytes are committed. -/
theorem test_commit_at_most_two :
    gives (step (offer (writing 0x60#7 0x02#8 0x00#8 4 (cell 0x61#7 0x77#8 s0)) 0 .csRise))
      (fun s => s.regAt 0x60#7 == 0x02#8 && s.regAt 0x61#7 == 0x00#8 && s.regAt 0x62#7 == 0x00#8) = true := by
  decide

/-- T9: a transaction without beats commits nothing, whatever IS_WRITE holds. -/
theorem test_no_beat_no_commit :
    gives (step (offer (writing 0x4E#7 0x02#8 0x00#8 0 s0) 0 .csRise)) (fun s => s.regAt 0x4E#7 == 0x00#8 && !s.sel) = true := by
  decide

/-- R115 (c): a read burst wraps from 0x7F to 0x00; it stays at 0x30. -/
theorem test_read_burst_address :
    gives (step (offer (reading 0x7F#7 1 s0) 0 (.beat 0x00#8))) (fun s => s.regAddr == 0x00#7) = true ∧
    gives (step (offer (reading 0x30#7 1 s0) 0 (.beat 0x00#8))) (fun s => s.regAddr == 0x30#7) = true := by
  decide

/-- G2: the tick at 1005000 pushes a record with the header 0x68 and the timestamp bytes ED 03, and re-arms. -/
theorem test_tick_record :
    gives (step (offer (timed 1000000 1005000 (cell 0x4E#7 0x02#8 s0)) 1005000 (.tick draws)))
      (fun s => s.fifoCnt == 16 && s.fifoW == 16 && s.fifoMem.read 0 == 0x68#8 && s.fifoMem.read 1 == 0x00#8 &&
        s.fifoMem.read 13 == 0x19#8 && s.fifoMem.read 14 == 0xED#8 && s.fifoMem.read 15 == 0x03#8 &&
        s.tmrNext == 2005000 && s.regAt 0x2E#7 == 0x01#8 && s.regAt 0x2D#7 == 0x04#8) = true := by
  decide

/-- F4: a push onto 2040 bytes drops 16, not 8. -/
theorem test_push_overflow :
    ((ring 2040 0 2040 s0).push (List.replicate 16 0x68#8)).fifoW = 8 ∧
    ((ring 2040 0 2040 s0).push (List.replicate 16 0x68#8)).fifoR = 16 ∧
    ((ring 2040 0 2040 s0).push (List.replicate 16 0x68#8)).fifoCnt = 2040 ∧
    ((ring 2040 0 2040 s0).push (List.replicate 16 0x68#8)).regAt 0x2D#7 = 0x06#8 := by
  decide

/-- G5 and G4: the timestamp is truncated to microseconds and wraps at 65536. -/
theorem test_timestamp : timestamp 65535999 = 0xFFFF#16 ∧ timestamp 65536000 = 0x0000#16 := by decide

/-- The host duties: a beat while deselected and a second CS_FALL have no step. -/
theorem test_duties : step (offer s0 0 (.beat 0x00#8)) = .refused .beatWhileDeselected ∧
    step (offer (reading 0x00#7 1 s0) 0 .csFall) = .refused .csFallWhileSelected := by
  exact ⟨rfl, rfl⟩

/-! ### Witnesses: a state and operands that meet the hypotheses of each statement -/

theorem offers_of_unbroken {s : State} {t : Nat} {e : Event} (h : (offer s t e).brokenDuty { now := t, event := e } = none) :
    (offer s t e).Offers t e [] := ⟨rfl, duties_of_unbroken h⟩

theorem inv_of {s : State} (hp : s.par = Config.reference) (hm : s.fifoMem = []) (hw : s.fifoW < 2048)
    (hr : s.fifoR < 2048) (hc : s.fifoCnt ≤ 2048) (hi : (s.fifoR + s.fifoCnt) % 2048 = s.fifoW)
    (ht : s.tmrPeriod = none ∨ (s.tmrPeriod = some 1000000 ∧ s.now ≤ s.tmrNext)) (ha : s.ampA = 0) (hg : s.ampG = 0)
    (h1 : s.regAt 0x76#7 = 0x00#8) (h2 : s.regAt 0x30#7 = 0x00#8) : s.Inv := by
  have hcap : s.par.fifoCap = 2048 := by rw [hp]; rfl
  refine ⟨by rw [hp]; decide, by rw [hm]; rfl, by rw [hm]; simp, by omega, by omega, by omega, by rw [hcap]; exact hi,
    ?_, ?_, by rw [ha]; decide, by rw [hg]; decide, h1, h2⟩
  · intro p hq
    rcases ht with h | ⟨h, _⟩
    · rw [h] at hq; cases hq
    · rw [h] at hq; cases hq; omega
  · intro p hq
    rcases ht with h | ⟨_, h⟩
    · rw [h] at hq; cases hq
    · exact h

/-- Inv at a ring of the given indices, with the timer running and the block enabled. -/
theorem inv_ring (w r c : Nat) (hw : w < 2048) (hr : r < 2048) (hc : c ≤ 2048) (hi : (r + c) % 2048 = w) :
    (ring w r c s0).Inv ∧ (ring w r c (timed 1000000 1000000 (cell 0x4E#7 0x02#8 s0))).Inv := by
  refine ⟨?_, ?_⟩
  · exact inv_of rfl rfl hw hr hc hi (.inl rfl) rfl rfl (show s0.regAt 0x76#7 = 0x00#8 by decide)
      (show s0.regAt 0x30#7 = 0x00#8 by decide)
  · exact inv_of rfl rfl hw hr hc hi (.inr ⟨rfl, Nat.zero_le 1000000⟩) rfl rfl
      (show (cell 0x4E#7 0x02#8 s0).regAt 0x76#7 = 0x00#8 by decide)
      (show (cell 0x4E#7 0x02#8 s0).regAt 0x30#7 = 0x00#8 by decide)

theorem witness_s0_inv : s0.Inv := (inv_ring 0 0 0 (by decide) (by decide) (by decide) (by decide)).1

theorem witness_memory_reset_wf : State.reset.fifoMem.wf = true := rfl

/-- AccessWordSelectsItsClass: both ends of each generic clause, next to the words that other clauses take. -/
theorem witness_AccessWordSelectsItsClass :
    (∀ aw ∈ [0x80#8, 0xAC#8, 0xAE#8, 0xAF#8, 0xB1#8, 0xFF#8], aw &&& 0x80#8 = 0x80#8 ∧ aw ≠ 0xAD#8 ∧ aw ≠ 0xB0#8) ∧
    (∀ aw ∈ [0x00#8, 0x2F#8, 0x31#8, 0x4F#8, 0x51#8, 0x75#8, 0x77#8, 0x7F#8],
      aw &&& 0x80#8 = 0x00#8 ∧ aw ≠ 0x76#8 ∧ aw ≠ 0x50#8 ∧ aw ≠ 0x30#8) := by
  decide

theorem witness_DecodeEncodeRoundTrip :
    ∀ i ∈ [Instr.rd 0x7F#7, .wr 0x00#7, .rdIntStatus, .rdFifoData, .rdReg 0x2C#7, .rdReg 0x31#7, .wrRegBankSel 0xFF#8,
      .wrAccelConfig0 0x0F#8, .wrFifoData 0x00#8, .wrReg 0x2D#7 0x81#8, .wrReg 0x77#7 0x00#8], i.wellFormed = true := by
  decide

theorem witness_DecodedBytesAreTheEncoding :
    decode .access [0x60#8, 0x05#8, 0xAD#8] = .instr (.wrReg 0x60#7 0x05#8) [0xAD#8] ∧
    decode .command [0xAD#8, 0x00#8] = .instr (.rd 0x2D#7) [0x00#8] := by
  decide

theorem witness_CommandBeatRunsDecodedCommand :
    (offer { s0 with sel := true } 0 (.beat 0xAD#8)).Offers 0 (.beat 0xAD#8) [] ∧
    (offer { s0 with sel := true } 0 (.beat 0xAD#8)).byteIdx = 0 ∧ decode .command [0xAD#8] = .instr (.rd 0x2D#7) [] :=
  ⟨offers_of_unbroken rfl, rfl, by decide⟩

theorem witness_ReadBeatRunsDecodedAccess :
    (offer (reading 0x30#7 1 s0) 0 (.beat 0x00#8)).Offers 0 (.beat 0x00#8) [] ∧ (reading 0x30#7 1 s0).byteIdx ≠ 0 ∧
    (reading 0x30#7 1 s0).isWrite = false ∧ decode .access [accessWord true 0x30#7] = .instr .rdFifoData [] :=
  ⟨offers_of_unbroken rfl, by decide, rfl, by decide⟩

/-- CommitRunsDecodedAccesses: at every BYTE_IDX, so with no, one, two and more than two data bytes. -/
theorem witness_CommitRunsDecodedAccesses (k : Nat) :
    (offer (writing 0x7F#7 0x05#8 0x06#8 k s0) 0 .csRise).Offers 0 .csRise [] ∧
    (writing 0x7F#7 0x05#8 0x06#8 k s0).isWrite = true ∧ (writing 0x7F#7 0x05#8 0x06#8 k s0).byteIdx = k ∧
    decode .access [accessWord false (writing 0x7F#7 0x05#8 0x06#8 k s0).startAddr, (writing 0x7F#7 0x05#8 0x06#8 k s0).staged 1]
      = .instr (.wrReg 0x7F#7 0x05#8) [] ∧
    decode .access [accessWord false ((writing 0x7F#7 0x05#8 0x06#8 k s0).startAddr + 1),
      (writing 0x7F#7 0x05#8 0x06#8 k s0).staged 2] = .instr (.wrReg 0x00#7 0x06#8) [] :=
  ⟨offers_of_unbroken rfl, rfl, rfl,
    show decode .access [accessWord false 0x7F#7, 0x05#8] = .instr (.wrReg 0x7F#7 0x05#8) [] by decide,
    show decode .access [accessWord false (0x7F#7 + 1), 0x06#8] = .instr (.wrReg 0x00#7 0x06#8) [] by decide⟩

/-- StepsExactlyWhenDutiesMet: an event that meets the duties, one that does not, and an empty inbox. -/
theorem witness_StepsExactlyWhenDutiesMet :
    (offer s0 0 .csFall).DutiesMet { now := 0, event := .csFall } ∧
    ¬(offer s0 0 .csRise).DutiesMet { now := 0, event := .csRise } ∧
    ¬(offer (timed 1000000 999 s0) 1000 .csFall).DutiesMet { now := 1000, event := .csFall } ∧ s0.inbox = [] := by
  refine ⟨duties_of_unbroken rfl, ?_, ?_, rfl⟩
  · intro h
    exact absurd h.2.2 (by decide)
  · intro h
    exact absurd (h.2.1 1000000 rfl) (by decide)

/-- EventReadsOnlyTheStateBefore: a command beat with events after it. -/
theorem witness_EventReadsOnlyTheStateBefore (rest : List Delivery) :
    ∃ t, step { s0 with sel := true, inbox := { now := 0, event := .beat 0xAD#8 } :: rest } = .next t := ⟨_, rfl⟩

/-- EventsTakenInHostOrder: two events, and then the host is asked. -/
theorem witness_EventsTakenInHostOrder :
    ∃ t, Host.Core.run core 3 { s0 with inbox := [{ now := 0, event := .csFall }, { now := 0, event := .csRise }] }
      = .next t ∧ t.asked = 1 ∧ t.inbox = Config.hostEvents 0 := ⟨_, rfl, rfl, rfl⟩

/-- The host's event at place n of an endless alternation of the two chip-select edges. -/
def edge (n : Nat) : Delivery := { now := 0, event := if n % 2 = 0 then .csFall else .csRise }

/-- The state that the first n edges leave, with l still to come. -/
def edged (n : Nat) (l : List Delivery) : State := { s0 with sel := decide (n % 2 = 1), inbox := l }

/-- Each edge meets the duties in the state that those before it leave. -/
theorem edged_unbroken (n : Nat) (l : List Delivery) : (edged n l).brokenDuty (edge n) = none := by
  rcases Nat.mod_two_eq_zero_or_one n with h | h
  · simp [State.brokenDuty, edged, edge, h, s0, State.reset]
  · simp [State.brokenDuty, edged, edge, h, s0, State.reset]

/-- Each edge leaves the state that the next one finds. -/
theorem edged_step (n : Nat) (l : List Delivery) : step (edged n (edge n :: l)) = .next (edged (n + 1) l) := by
  rw [step_cons (s := edged n (edge n :: l)) rfl, deliver_unbroken (edged_unbroken n _)]
  rcases Nat.mod_two_eq_zero_or_one n with h | h
  · have h1 : (n + 1) % 2 = 1 := by omega
    simp only [edged, edge, h, h1]
    rfl
  · have h1 : (n + 1) % 2 = 0 := by omega
    simp only [edged, edge, h, h1]
    rfl

/-- m edges from place n on take m steps. -/
theorem edged_run (m n : Nat) (l : List Delivery) :
    Host.Core.run core m (edged n ((List.range' n m).map edge ++ l)) = .next (edged (n + m) l) := by
  induction m generalizing n with
  | zero => rfl
  | succ m ih =>
    refine (run_succ m _ _).2 ⟨_, edged_step n _, ?_⟩
    have := ih (n + 1)
    rwa [Nat.add_assoc, Nat.add_comm 1 m] at this

/-- InfiniteEventSequenceNeverEndsRun: the endless alternation of CS_FALL and CS_RISE from S0 meets the duties. -/
theorem witness_InfiniteEventSequenceNeverEndsRun (n : Nat) (t : State)
    (h : Host.Core.run core n { s0 with inbox := (List.range (n + 1)).map edge } = .next t) : t.DutiesMet (edge n) := by
  have e : (List.range (n + 1)).map edge = (List.range' 0 n).map edge ++ [edge n] := by
    rw [List.range_succ, List.map_append, List.range_eq_range']
    rfl
  rw [e] at h
  have ht := h.symm.trans (edged_run n 0 [edge n])
  cases ht
  rw [Nat.zero_add]
  exact duties_of_unbroken (edged_unbroken n _)

theorem witness_CommandBeatMeaning : ({ s0 with sel := true } : State).sel = true ∧ s0.byteIdx = 0 := ⟨rfl, rfl⟩

/-- CommandByteLatchesDirectionAndAddress: a write command after a transaction that left other scratch. -/
theorem witness_CommandByteLatchesDirectionAndAddress :
    (offer { reading 0x13#7 0 s0 with sel := true } 0 (.beat 0x4E#8)).Offers 0 (.beat 0x4E#8) [] ∧
    (reading 0x13#7 0 s0).byteIdx = 0 :=
  ⟨offers_of_unbroken rfl, rfl⟩

/-- RdRegMeaning: both ends of the address range and the neighbours of the two special addresses. -/
theorem witness_RdRegMeaning : s0.bank = 0x00#8 ∧
    ∀ a ∈ [0x00#7, 0x2C#7, 0x2E#7, 0x2F#7, 0x31#7, 0x76#7, 0x7F#7], a ≠ 0x2D#7 ∧ a ≠ 0x30#7 := by
  decide

theorem witness_RdIntStatusMeaning : (cell 0x2D#7 0x06#8 s0).bank = 0x00#8 := rfl

theorem witness_ReadBeatClearsIntStatusAtThatBeat :
    (offer (reading 0x2D#7 2 (cell 0x2D#7 0x04#8 s0)) 0 (.beat 0x00#8)).Offers 0 (.beat 0x00#8) [] ∧
    (reading 0x2D#7 2 s0).byteIdx ≠ 0 ∧ (reading 0x2D#7 2 s0).isWrite = false ∧ (reading 0x2D#7 2 s0).bank = 0x00#8 ∧
    (reading 0x2D#7 2 s0).regAddr = 0x2D#7 :=
  ⟨offers_of_unbroken rfl, by decide, rfl, rfl, rfl⟩

/-- RdFifoDataPopsOneByte: one byte queued, and the largest fill level. -/
theorem witness_RdFifoDataPopsOneByte (c : Nat) (h : c ∈ [1, 16, 2048, 16 * 65535]) :
    (ring 0 0 c s0).bank = 0x00#8 ∧ 0 < (ring 0 0 c s0).fifoCnt ∧ (ring 0 0 c s0).fifoCnt ≤ 16 * 65535 := by
  refine ⟨rfl, ?_, ?_⟩ <;> simp at h <;> rcases h with rfl | rfl | rfl | rfl <;> decide

theorem witness_RdFifoDataEmptyGivesSentinel : s0.bank = 0x00#8 ∧ s0.fifoCnt = 0 := ⟨rfl, rfl⟩

/-- OtherBankReadsZero: a generic read and the two with side effects, in the lowest other bank and the highest. -/
theorem witness_OtherBankReadsZero : (banked 0x01#8 s0).bank ≠ 0x00#8 ∧ (banked 0xFF#8 s0).bank ≠ 0x00#8 ∧
    ∀ aw ∈ [0xAD#8, 0xB0#8, 0xF6#8], aw &&& 0x80#8 = 0x80#8 ∧ decode .access [aw] = .instr (decodeRead aw) [] := by
  decide

/-- WrRegMeaning: both ends of the address range and the neighbours of the three special addresses. -/
theorem witness_WrRegMeaning : s0.bank = 0x00#8 ∧
    ∀ a ∈ [0x00#7, 0x2D#7, 0x2F#7, 0x31#7, 0x4F#7, 0x51#7, 0x75#7, 0x77#7, 0x7F#7], a ≠ 0x30#7 ∧ a ≠ 0x50#7 ∧ a ≠ 0x76#7 := by
  decide

/-- WrAccelConfig0RestartsTimer: codes 1 and 15 of the reference table, with high bits set. -/
theorem witness_WrAccelConfig0RestartsTimer : s0.bank = 0x00#8 ∧
    s0.par.odrTable[(0x01#8).toNat % 16]? = some (some 32000000) ∧
    s0.par.odrTable[(0xFF#8).toNat % 16]? = some (some 500000) := by
  decide

/-- WrAccelConfig0WithoutRateKeepsTimer: codes 0 and 14 of the reference table. -/
theorem witness_WrAccelConfig0WithoutRateKeepsTimer : s0.bank = 0x00#8 ∧
    s0.par.odrTable[(0x00#8).toNat % 16]? = some none ∧ s0.par.odrTable[(0xFE#8).toNat % 16]? = some none := by
  decide

theorem witness_OdrCodeSixAndZero : s0.par.ok = true ∧ s0.bank = 0x00#8 ∧ 0x16#8 &&& 0x0F#8 = 0x06#8 ∧
    0xF0#8 &&& 0x0F#8 = 0x00#8 := by
  decide

/-- OtherBankDropsWrites: the write to 0x76, and three that are dropped. -/
theorem witness_OtherBankDropsWrites : (banked 0x03#8 s0).bank ≠ 0x00#8 ∧
    ∀ aw ∈ [0x76#8, 0x50#8, 0x30#8, 0x4E#8],
      aw &&& 0x80#8 = 0x00#8 ∧ decode .access [aw, 0x02#8] = .instr (decodeWrite aw 0x02#8) [] := by
  decide

/-- BankChangeAppliesToNextByte: a change into bank 1 and a change back to bank 0. -/
theorem witness_BankChangeAppliesToNextByte (b v : Byte) :
    (offer (writing 0x76#7 v 0x33#8 3 (banked b s0)) 0 .csRise).Offers 0 .csRise [] ∧
    (writing 0x76#7 v 0x33#8 3 (banked b s0)).isWrite = true ∧ 3 ≤ (writing 0x76#7 v 0x33#8 3 (banked b s0)).byteIdx ∧
    (writing 0x76#7 v 0x33#8 3 (banked b s0)).startAddr = 0x76#7 :=
  ⟨offers_of_unbroken rfl, rfl, le_refl 3, rfl⟩

/-- PushThatFits and PushAppendsToQueue: an empty push, a record, and a record that fills the FIFO exactly (F2). -/
theorem witness_PushThatFits (w : Nat) (h : w ∈ [0, 1, 2032]) : (ring w 0 w s0).Inv ∧
    (ring w 0 w s0).fifoCnt + (List.replicate 16 0x68#8).length ≤ (ring w 0 w s0).par.fifoCap ∧
    (ring w 0 w s0).fifoCnt + ([] : List Byte).length ≤ (ring w 0 w s0).par.fifoCap := by
  simp at h
  rcases h with rfl | rfl | rfl <;>
    exact ⟨(inv_ring _ 0 _ (by decide) (by decide) (by decide) (by decide)).1, by decide, by decide⟩

/-- PushThatOverflows and PushAppendsToQueue: one byte too many, F4, and a full FIFO (F3). -/
theorem witness_PushThatOverflows (w c : Nat) (h : (w, c) ∈ [(2033, 2033), (2040, 2040), (0, 2048)]) :
    (ring w 0 c s0).Inv ∧ (List.replicate 16 0x68#8).length ≤ (ring w 0 c s0).par.fifoCap ∧
    (ring w 0 c s0).par.fifoCap < (ring w 0 c s0).fifoCnt + (List.replicate 16 0x68#8).length := by
  simp at h
  rcases h with ⟨rfl, rfl⟩ | ⟨rfl, rfl⟩ | ⟨rfl, rfl⟩ <;>
    exact ⟨(inv_ring _ 0 _ (by decide) (by decide) (by decide) (by decide)).1, by decide, by decide⟩

theorem witness_UpdateCountMeaning : s0.fifoCnt ≤ 16 * 65535 ∧ (ring 0 0 (16 * 65535) s0).fifoCnt ≤ 16 * 65535 := by
  decide

/-- StepKeepsInvariant, StepRefinesByteQueue and CountPairFollowsFifo: a pop changes the fill level. -/
theorem witness_pop_step : (offer (reading 0x30#7 1 (ring 16 0 16 s0)) 0 (.beat 0x00#8)).Inv ∧
    ∃ t, step (offer (reading 0x30#7 1 (ring 16 0 16 s0)) 0 (.beat 0x00#8)) = .next t ∧ t.fifoCnt ≠ 16 := by
  refine ⟨inv_of rfl rfl (by decide) (by decide) (by decide) (by decide) (.inl rfl) rfl rfl (by decide) (by decide), _,
    rfl, ?_⟩
  decide

/-- The same, for a tick that overflows: it moves FIFO_R (F3). -/
theorem witness_tick_step : (offer (timed 1000000 0 (ring 0 0 2048 (cell 0x4E#7 0x02#8 s0))) 0 (.tick draws)).Inv ∧
    ∃ t, step (offer (timed 1000000 0 (ring 0 0 2048 (cell 0x4E#7 0x02#8 s0))) 0 (.tick draws)) = .next t ∧ t.fifoR ≠ 0 := by
  refine ⟨inv_of rfl rfl (by decide) (by decide) (by decide) (by decide) (.inr ⟨rfl, by decide⟩) rfl rfl (by decide)
    (by decide), _, rfl, ?_⟩
  decide

theorem witness_DisabledTickOnlyRearms :
    (offer (timed 1000000 1000000 s0) 1000000 (.tick draws)).Offers 1000000 (.tick draws) [] ∧
    (timed 1000000 1000000 s0).tmrPeriod = some 1000000 ∧ (s0.regAt 0x4E#7).getLsbD 1 = false :=
  ⟨offers_of_unbroken rfl, rfl, by decide⟩

/-- EnabledTickQueuesOneRecord: a record that fits exactly, and one that does not fit by one byte. -/
theorem witness_EnabledTickQueuesOneRecord (w : Nat) (h : w ∈ [0, 2032, 2033]) :
    (offer (ring w 0 w (timed 1000000 1000000 (cell 0x4E#7 0x02#8 s0))) 1000000 (.tick draws)).Inv ∧
    (offer (ring w 0 w (timed 1000000 1000000 (cell 0x4E#7 0x02#8 s0))) 1000000 (.tick draws)).Offers 1000000
      (.tick draws) [] ∧
    ((ring w 0 w (timed 1000000 1000000 (cell 0x4E#7 0x02#8 s0))).regAt 0x4E#7).getLsbD 1 = true := by
  simp at h
  rcases h with rfl | rfl | rfl <;>
    exact ⟨inv_of rfl rfl (by decide) (by decide) (by decide) (by decide) (.inr ⟨rfl, by decide⟩) rfl rfl (by decide)
      (by decide), offers_of_unbroken rfl, by decide⟩

/-- SetAmpWritesOneAmplitude: both attributes, at both ends of the range. -/
theorem witness_SetAmpWritesOneAmplitude :
    (offer s0 0 (.setAmp .accel 1)).Offers 0 (.setAmp .accel 1) [] ∧
    (offer s0 0 (.setAmp .gyro 0)).Offers 0 (.setAmp .gyro 0) [] :=
  ⟨offers_of_unbroken (by decide), offers_of_unbroken (by decide)⟩

theorem witness_CsFallStartsTransaction : (offer s0 0 .csFall).Offers 0 .csFall [] := offers_of_unbroken rfl

/-- StagedWriteBeat: the first data byte and the second. -/
theorem witness_StagedWriteBeat (k : Nat) (h : k ∈ [1, 2]) :
    (offer (writing 0x4E#7 0 0 k s0) 0 (.beat 0x02#8)).Offers 0 (.beat 0x02#8) [] ∧
    (writing 0x4E#7 0 0 k s0).isWrite = true ∧ 1 ≤ (writing 0x4E#7 0 0 k s0).byteIdx ∧
    (writing 0x4E#7 0 0 k s0).byteIdx ≤ 2 := by
  simp at h
  rcases h with rfl | rfl <;> exact ⟨offers_of_unbroken rfl, rfl, by decide, by decide⟩

theorem witness_ExcessWriteBeat : (offer (writing 0x60#7 2 0 3 s0) 0 (.beat 0x55#8)).Offers 0 (.beat 0x55#8) [] ∧
    (writing 0x60#7 2 0 3 s0).isWrite = true ∧ 2 < (writing 0x60#7 2 0 3 s0).byteIdx :=
  ⟨offers_of_unbroken rfl, rfl, by decide⟩

/-- CsRiseWithoutCommit: no command byte after a write transaction (T9), and a read transaction. -/
theorem witness_CsRiseWithoutCommit :
    ((offer (writing 0x4E#7 2 0 0 s0) 0 .csRise).Offers 0 .csRise [] ∧ (writing 0x4E#7 2 0 0 s0).byteIdx = 0) ∧
    ((offer (reading 0x2D#7 2 s0) 0 .csRise).Offers 0 .csRise [] ∧ (reading 0x2D#7 2 s0).isWrite = false) :=
  ⟨⟨offers_of_unbroken rfl, rfl⟩, ⟨offers_of_unbroken rfl, rfl⟩⟩

/-- AnomalyChangesNoState: the widths 0 and 2, on both sides of 1. -/
theorem witness_AnomalyChangesNoState :
    (offer (reading 0x30#7 2 s0) 0 (.xferAnomaly 0)).Offers 0 (.xferAnomaly 0) [] ∧
    (offer (reading 0x30#7 2 s0) 0 (.xferAnomaly 2)).Offers 0 (.xferAnomaly 2) [] :=
  ⟨offers_of_unbroken rfl, offers_of_unbroken rfl⟩

/-- ReadBurstAddress: at, before and after 0x30 and at 0x7F, under both values of PIN_RULE. -/
theorem witness_ReadBurstAddress (a : RegAddr) (r : PinRule) :
    (offer (reading a 1 { s0 with par := { Config.reference with pinRule := r } }) 0 (.beat 0x00#8)).Offers 0
      (.beat 0x00#8) [] ∧ (reading a 1 s0).byteIdx ≠ 0 ∧ (reading a 1 s0).isWrite = false ∧
    (reading a 1 { s0 with par := { Config.reference with pinRule := r } }).par.pinRule = r :=
  ⟨offers_of_unbroken rfl, Nat.one_ne_zero, rfl, rfl⟩

/-- FreshTransactionForgetsScratch: from two states with different scratch both runs answer a next state. -/
theorem witness_FreshTransactionForgetsScratch (k : Nat) (w : Bool) (a : RegAddr) (stg : Vector Byte 3) :
    ∃ t, Host.Core.run core 2 { s0 with byteIdx := k, isWrite := w, regAddr := a, stage := stg, inbox :=
      [{ now := 0, event := .csFall }, { now := 0, event := .beat 0xAD#8 }] } = .next t := ⟨_, rfl⟩

/-- WriteTransactionThenReadBack: the eight events at NOW = 0, for the address 0x13 and the byte 0x5A (RF1). -/
theorem witness_WriteTransactionThenReadBack : ∃ s : State, s.sel = false ∧ s.bank = 0x00#8 ∧
    (0x13#7 ≠ 0x2D#7 ∧ 0x13#7 ≠ 0x30#7 ∧ 0x13#7 ≠ 0x50#7 ∧ 0x13#7 ≠ 0x76#7) ∧
    s.now ≤ (fun _ : Nat => 0) 0 ∧ (∀ i, (fun _ : Nat => 0) i ≤ (fun _ : Nat => 0) (i + 1)) ∧
    (∀ p, s.tmrPeriod = some p → (fun _ : Nat => 0) 7 ≤ s.tmrNext) ∧
    s.inbox = { now := 0, event := .csFall } :: { now := 0, event := .beat (accessWord false 0x13#7) } ::
      { now := 0, event := .beat 0x5A#8 } :: { now := 0, event := .csRise } ::
      { now := 0, event := .csFall } :: { now := 0, event := .beat (accessWord true 0x13#7) } ::
      { now := 0, event := .beat 0x00#8 } :: { now := 0, event := .csRise } :: [] :=
  ⟨{ s0 with inbox := _ }, rfl, rfl, by decide, le_refl 0, fun _ => le_refl 0, fun p h => (by cases h), rfl⟩

/-- FlagsStayUntilReadOrWritten: a read beat clears FIFO_WM, and a commit clears FIFO_FULL. -/
theorem witness_FlagsStayUntilReadOrWritten :
    gives (step (offer (reading 0x2D#7 1 (cell 0x2D#7 0x04#8 s0)) 0 (.beat 0x00#8)))
      (fun t => !(t.regAt 0x2D#7).getLsbD 2) = true ∧
    ((cell 0x2D#7 0x04#8 s0).regAt 0x2D#7).getLsbD 2 = true ∧
    gives (step (offer (writing 0x2C#7 0x00#8 0x81#8 3 (cell 0x2D#7 0x02#8 s0)) 0 .csRise))
      (fun t => !(t.regAt 0x2D#7).getLsbD 1) = true ∧
    ((cell 0x2D#7 0x02#8 s0).regAt 0x2D#7).getLsbD 1 = true := by
  decide

/-- BankChangedOnlyByBankSelect and PlainCellChangedOnlyByCommit: by the first byte and by the second (T12). -/
theorem witness_commit_changes :
    gives (step (offer (writing 0x76#7 0x01#8 0x33#8 3 s0) 0 .csRise)) (fun t => t.bank != s0.bank) = true ∧
    gives (step (offer (writing 0x75#7 0x44#8 0x01#8 3 s0) 0 .csRise))
      (fun t => t.bank != s0.bank && t.regAt 0x75#7 != s0.regAt 0x75#7) = true := by
  decide

/-- TimerChangedOnlyByTickOrRestart: a tick, and a commit whose second byte goes to 0x50. -/
theorem witness_timer_changes :
    gives (step (offer (timed 1000000 1000000 s0) 1000000 (.tick draws))) (fun t => t.tmrNext != 1000000) = true ∧
    gives (step (offer (writing 0x4F#7 0x00#8 0x06#8 3 s0) 0 .csRise)) (fun t => t.tmrPeriod != s0.tmrPeriod) = true := by
  decide

theorem witness_AmplitudesChangedOnlyBySetAmp :
    gives (step (offer s0 0 (.setAmp .gyro 1))) (fun t => t.ampG != s0.ampG) = true := by
  decide

/-- WriteBeatsTouchScratchOnly: a staged byte and an excess one. -/
theorem witness_WriteBeatsTouchScratchOnly :
    gives (step (offer (writing 0x4E#7 0 0 1 s0) 0 (.beat 0x02#8))) (fun t => t.byteIdx == 2) = true ∧
    gives (step (offer (writing 0x4E#7 0 0 3 s0) 0 (.beat 0x02#8))) (fun t => t.byteIdx == 4) = true := by
  decide

/-- OnlyChipSelectEdgesChangeSel: a falling edge and a rising one. -/
theorem witness_OnlyChipSelectEdgesChangeSel :
    gives (step (offer s0 0 .csFall)) (fun t => t.sel != s0.sel) = true ∧
    gives (step (offer (reading 0x00#7 1 s0) 0 .csRise)) (fun t => t.sel != true) = true := by
  decide

end Sys2Proof.Tests
end

section
/-! PROOF. The command byte of beat 0 (30_encoding.md R66 to R68): its fields in the words of the statements, and what the
command beat leaves of them. -/
namespace Sys2Proof.Machine

/-- Bit 7 = 0 is a write (R67). -/
theorem isReadByte_eq_false_iff (b : Byte) : isReadByte b = false ↔ b &&& 0x80#8 = 0x00#8 := by
  revert b
  decide

theorem addrField_eq_setWidth (b : Byte) : addrField b = b.setWidth 7 :=
  (BitVec.setWidth_eq_extractLsb' (by decide)).symm

/-- Both command bytes run the one command beat, with the byte's own fields (R112). -/
theorem execState_decodeCommand (b : Byte) (s : State) :
    execState (decodeCommand b) s = s.commandBeat (isReadByte b) (addrField b) := by
  unfold decodeCommand
  cases isReadByte b with
  | true => rfl
  | false => rfl

@[simp] theorem State.commandBeat_isWrite (s : State) (r : Bool) (a : RegAddr) : (s.commandBeat r a).isWrite = !r := rfl
@[simp] theorem State.commandBeat_regAddr (s : State) (r : Bool) (a : RegAddr) : (s.commandBeat r a).regAddr = a := rfl

@[simp] theorem State.commandBeat_staged_zero (s : State) (r : Bool) (a : RegAddr) :
    (s.commandBeat r a).staged 0 = accessWord r a := by
  simp [State.staged, State.commandBeat, State.respondFree]

@[simp] theorem State.commitAddr_zero (s : State) : s.commitAddr 0 = addrField (s.staged 0) :=
  BitVec.add_zero _

/-- The step of beat 0 is the command beat of the byte offered, at the state the event finds. -/
theorem step_commandBeat {s : State} {now : Nat} {b : Byte} {rest : List Delivery}
    (h : s.Offers now (.beat b) rest) (h0 : s.byteIdx = 0) :
    step s = .next ((s.arrive now rest).commandBeat (isReadByte b) (addrField b)) :=
  calc step s = beat b (s.arrive now rest) := offers_step h
    _ = exec (decodeCommand b) (s.arrive now rest) := if_pos h0
    _ = .next ((s.arrive now rest).commandBeat (isReadByte b) (addrField b)) := by
      rw [exec_eq_execState, execState_decodeCommand]

/-- Settles O11: the command beat latches the fields of the byte offered, and STAGE[0], put together from them, is that
byte again. -/
theorem commandByteLatchesDirectionAndAddress : Obligations.CommandByteLatchesDirectionAndAddress := by
  intro s now b rest hOffers h0
  refine ⟨_, step_commandBeat hOffers h0, ?direction, ?regAddr, ?commitAddr, ?stage⟩
  case direction => simp [isReadByte_eq_false_iff]
  case regAddr => simp [← addrField_eq_setWidth]
  case commitAddr => simp [← addrField_eq_setWidth]
  case stage => simp

end Sys2Proof.Machine
end

section
/-! PROOF. The plain register read (40_register_file.md R80, R81). -/
namespace Sys2Proof.Machine

/-- RD_REG answers the plain read behind BusRead's bank check. -/
theorem exec_rdReg (a : RegAddr) (s : State) :
    exec (.rdReg a) s = answer (s.gateRead (State.plainRead a)) := rfl

/-- Settles O12: with BANK = 0 the bank check lets the plain read through, and that read answers the cell's byte and the
state it found. The two excluded addresses, which the decoder keeps from RD_REG, play no part in its meaning. -/
theorem rdRegMeaning : Obligations.RdRegMeaning := by
  intro s a hBank _ _
  calc exec (.rdReg a) s = answer (s.gateRead (State.plainRead a)) := exec_rdReg a s
    _ = answer (s.plainRead a) := by rw [State.gateRead_bank0 hBank]
    _ = .next { s with miso := s.regAt a :: s.miso } := rfl

end Sys2Proof.Machine
end

section
/-! PROOF. The FIFO read through the bus (40_register_file.md R80, R83; 41_fifo_engine.md R93, R94). -/
namespace Sys2Proof.Machine

/-- RD_FIFO_DATA answers a pop behind BusRead's bank check. -/
theorem exec_rdFifoData (s : State) : exec .rdFifoData s = answer (s.gateRead State.pop) := rfl

/-- Settles O16: with BANK = 0 the bank check lets the pop through, and a pop of the empty FIFO answers the sentinel and
the state it found, without UpdateCount. -/
theorem rdFifoDataEmptyGivesSentinel : Obligations.RdFifoDataEmptyGivesSentinel := by
  intro s hBank hEmpty
  calc exec .rdFifoData s = answer (s.gateRead State.pop) := exec_rdFifoData s
    _ = answer s.pop := by rw [State.gateRead_bank0 hBank]
    _ = answer (Config.fifoEmpty, s) := by rw [State.pop_empty hEmpty]
    _ = .next { s with miso := 0x80#8 :: s.miso } := rfl

end Sys2Proof.Machine
end

section
/-! PROOF. SET_AMP, the host's setting of the sample generator (42_sample_generator.md R108). -/
namespace Sys2Proof.Machine

/-- The step of a SET_AMP offered under the duties writes the amplitude it names, at the state the event finds. -/
theorem step_setAmp {s : State} {now : Nat} {which : AmpSel} {q : Rat} {rest : List Delivery}
    (h : s.Offers now (.setAmp which q) rest) : step s = .next ((s.arrive now rest).writeAmp which q) :=
  calc step s = handle (.setAmp which q) (s.arrive now rest) := offers_step h
    _ = .next ((s.arrive now rest).writeAmp which q) := rfl

/-- Settles O36: for each attribute, the one write is an update of that amplitude alone. -/
theorem setAmpWritesOneAmplitude : Obligations.SetAmpWritesOneAmplitude := by
  intro s now q rest
  refine ⟨fun hOffers => ?accel, fun hOffers => ?gyro⟩
  case accel =>
    calc step s = .next ((s.arrive now rest).writeAmp .accel q) := step_setAmp hOffers
      _ = .next { s with inbox := rest, now := now, ampA := q } := rfl
  case gyro =>
    calc step s = .next ((s.arrive now rest).writeAmp .gyro q) := step_setAmp hOffers
      _ = .next { s with inbox := rest, now := now, ampG := q } := rfl

end Sys2Proof.Machine
end

section
/-! PROOF. The staged write data beat and the CS_RISE that commits nothing (43_spi_transaction.md R114, R119). -/
namespace Sys2Proof.Machine

/-- A staged beat puts its byte where BYTE_IDX points, while that is within STAGE. -/
theorem State.stageBeat_staged_byteIdx {s : State} (b : Byte) (h : s.byteIdx ≤ 2) :
    (s.stageBeat b).staged s.byteIdx = b := by
  have hBound : s.byteIdx < 3 := by omega
  simp [State.staged, State.stageBeat, hBound]

/-- A staged beat leaves every other staged byte. -/
theorem State.stageBeat_staged_of_ne {s : State} (b : Byte) {j : Nat} (h : j ≠ s.byteIdx) :
    (s.stageBeat b).staged j = s.staged j := by
  simp [State.staged, State.stageBeat, Vector.getElem?_setIfInBounds_ne h.symm]

/-- The step of a write data beat within the staging capacity stages the byte, at the state the event finds (R110). -/
theorem step_stageBeat {s : State} {now : Nat} {b : Byte} {rest : List Delivery} (h : s.Offers now (.beat b) rest)
    (hWrite : s.isWrite = true) (h0 : s.byteIdx ≠ 0) (h2 : s.byteIdx ≤ 2) :
    step s = .next ((s.arrive now rest).stageBeat b) := by
  have hNotRead : ¬s.isWrite = false := by simp [hWrite]
  calc step s = beat b (s.arrive now rest) := offers_step h
    _ = if s.isWrite = false then readBeat (s.arrive now rest)
        else if s.byteIdx ≤ 2 then .next ((s.arrive now rest).stageBeat b)
        else .next (s.arrive now rest).excessBeat := if_neg h0
    _ = .next ((s.arrive now rest).stageBeat b) := by rw [if_neg hNotRead, if_pos h2]

/-- Settles O38: the step is the staged beat, which writes STAGE at BYTE_IDX alone. -/
theorem stagedWriteBeat : Obligations.StagedWriteBeat := by
  intro s now b rest hOffers hWrite h1 h2
  refine ⟨_, step_stageBeat hOffers hWrite (by omega) h2, ?staged, ?others, ?frame⟩
  case staged => exact State.stageBeat_staged_byteIdx (s := s.arrive now rest) b h2
  case others => exact fun j hj => State.stageBeat_staged_of_ne (s := s.arrive now rest) b hj
  case frame => rfl

/-- With no command byte, or in a read transaction, CS_RISE is the deselect alone. -/
theorem csRise_eq_deselect {s : State} (h : s.byteIdx = 0 ∨ s.isWrite = false) : csRise s = .next s.deselect := by
  refine if_neg fun ⟨h0, hWrite⟩ => ?_
  rcases h with hNoByte | hRead
  · exact h0 hNoByte
  · simp [hRead] at hWrite

/-- Settles O40: at the state the event finds, CS_RISE takes its branch without commits, which only clears SEL. -/
theorem csRiseWithoutCommit : Obligations.CsRiseWithoutCommit := by
  intro s now rest hOffers hNoCommit
  calc step s = csRise (s.arrive now rest) := offers_step hOffers
    _ = .next (s.arrive now rest).deselect := csRise_eq_deselect hNoCommit
    _ = .next { s with inbox := rest, now := now, sel := false } := rfl

end Sys2Proof.Machine
end

section
/-! PROOF. The interrupt flags stay set (60_exceptions.md R131): every operation but two keeps the bits of INT_STATUS that
are 1, and the two are the read of R82 and the store of R85. -/
namespace Sys2Proof.Machine

/-- Every bit of INT_STATUS that is 1 in s is 1 in t. -/
def State.FlagsStay (s t : State) : Prop :=
  ∀ k, (s.regAt 0x2D#7).getLsbD k = true → (t.regAt 0x2D#7).getLsbD k = true

/-- The step from s to t is the read data beat that returns INT_STATUS and clears it (R82, R113). -/
def State.StatusReadToClear (s t : State) : Prop :=
  ∃ now b rest, s.inbox = { now := now, event := .beat b } :: rest ∧ s.byteIdx ≠ 0 ∧ s.isWrite = false ∧
    s.regAddr = 0x2D#7 ∧ t.miso = s.regAt 0x2D#7 :: s.miso ∧ t.regAt 0x2D#7 = 0x00#8

/-- The step from s to t is the CS_RISE that commits a staged byte to INT_STATUS (R85, R118). -/
def State.StatusCommitted (s t : State) : Prop :=
  ∃ now rest i, s.inbox = { now := now, event := .csRise } :: rest ∧ s.isWrite = true ∧ i < 2 ∧ i + 1 < s.byteIdx ∧
    s.commitAddr i = 0x2D#7 ∧ t.regAt 0x2D#7 = s.staged (1 + i)

theorem State.FlagsStay.of_eq {s t : State} (h : t.regAt 0x2D#7 = s.regAt 0x2D#7) : s.FlagsStay t := by
  intro k hk
  rwa [h]

theorem State.FlagsStay.trans {s t u : State} (hst : s.FlagsStay t) (htu : t.FlagsStay u) : s.FlagsStay u :=
  fun k hk => htu k (hst k hk)

/-- An OR clears no bit. -/
theorem State.raiseFlag_flagsStay (s : State) (f : Byte) : s.FlagsStay (s.raiseFlag f) := by
  intro k hk
  simp [State.raiseFlag_regAt, hk]

/-- The count refresh raises FIFO_WM or leaves INT_STATUS (R92). -/
theorem State.updateCount_flagsStay (s : State) : s.FlagsStay s.updateCount := by
  intro k hk
  have hStatus : s.updateCount.regAt 0x2D#7 = s.statusAfterCount := State.updateCount_regAt s 0x2D#7
  rw [hStatus, State.statusAfterCount]
  split_ifs
  · simp [hk]
  · exact hk

/-- An overflow raises FIFO_FULL, and a push that fits writes no register cell (R90, R91). -/
theorem State.countIn_flagsStay (s : State) (n : Nat) : s.FlagsStay (s.countIn n) := by
  unfold State.countIn
  split_ifs
  · exact State.raiseFlag_flagsStay _ fifoFullFlag
  · exact .of_eq rfl

theorem State.push_flagsStay (s : State) (buf : List Byte) : s.FlagsStay (s.push buf) :=
  have hCopy : s.FlagsStay (s.copyIn buf) := .of_eq rfl
  (hCopy.trans (State.countIn_flagsStay _ _)).trans (State.updateCount_flagsStay _)

theorem State.pop_flagsStay (s : State) : s.FlagsStay s.pop.2 := by
  by_cases hEmpty : s.fifoCnt = 0
  · rw [State.pop_empty hEmpty]
    exact .of_eq rfl
  · have hTake : s.FlagsStay s.takeOne := .of_eq rfl
    rw [State.pop_nonempty hEmpty]
    exact hTake.trans (State.updateCount_flagsStay _)

theorem State.tick_flagsStay (s : State) (d : AxisDraws) : s.FlagsStay (s.tick d) := by
  have hRearm : s.FlagsStay s.rearm := .of_eq (State.rearm_regAt s _)
  unfold State.tick
  split_ifs
  · exact hRearm.trans (State.push_flagsStay _ _)
  · exact hRearm

/-- Only a read access at 0x2D in bank 0 clears a flag, and it answers INT_STATUS and clears all of it (R80 to R83). -/
theorem readAccess_intStatus (a : RegAddr) (s : State) :
    s.FlagsStay (execState (decodeRead (accessWord true a)) s) ∨
    (s.bank = 0x00#8 ∧ a = 0x2D#7 ∧
      execState (decodeRead (accessWord true a)) s = (s.writeReg 0x2D#7 0x00#8).respond (s.regAt 0x2D#7)) := by
  by_cases hBank : s.bank = 0x00#8
  · rcases decodeRead_cases a with ⟨ha, hInstr⟩ | ⟨_, hInstr⟩ | ⟨_, _, hInstr⟩ <;> rw [hInstr, execState]
    · exact .inr ⟨hBank, ha, by rw [State.gateRead_bank0 hBank, State.readToClear]⟩
    · rw [State.gateRead_bank0 hBank]
      exact .inl s.pop_flagsStay
    · rw [State.gateRead_bank0 hBank]
      exact .inl (.of_eq rfl)
  · refine .inl (.of_eq ?_)
    rcases decodeRead_cases a with ⟨_, hInstr⟩ | ⟨_, hInstr⟩ | ⟨_, _, hInstr⟩ <;>
      rw [hInstr, execState, State.gateRead_other hBank, State.respond_regAt]

/-- INT_STATUS after the write access of a staged byte: the byte in bank 0 at 0x2D, and unchanged otherwise (R84, R85). -/
theorem commitAccess_intStatus (s u : State) (i : Nat) :
    (execState (s.commitAccess i) u).regAt 0x2D#7 =
      if u.bank = 0x00#8 ∧ s.commitAddr i = 0x2D#7 then s.staged (1 + i) else u.regAt 0x2D#7 := by
  rw [State.commitAccess, writeAccess_regAt]
  by_cases h : s.commitAddr i = 0x2D#7
  · simp [h]
  · simp [h, Ne.symm h]

/-- The second staged byte goes to the address after the first's (R116). -/
theorem State.commitAddr_one (s : State) : s.commitAddr 1 = s.commitAddr 0 + 1 := by
  simp [State.commitAddr]

/-- A first staged byte before 0x2D does not go to REG_BANK_SEL, so the second finds the BANK that the first found. -/
theorem commitAccess_bank_of_next_intStatus {s : State} (u : State) (h : s.commitAddr 1 = 0x2D#7) :
    (execState (s.commitAccess 0) u).bank = u.bank := by
  have hFirst : s.commitAddr 0 ≠ 0x76#7 := by
    intro h0
    rw [State.commitAddr_one, h0] at h
    exact absurd h (by decide)
  rw [State.commitAccess, writeAccess_bank, if_neg hFirst]

/-- INT_STATUS after two write accesses: as it was, or one of the two bytes, stored in bank 0 at 0x2D (R118). -/
theorem commitTwo_intStatus (s u : State) :
    (execState (s.commitAccess 1) (execState (s.commitAccess 0) u)).regAt 0x2D#7 = u.regAt 0x2D#7 ∨
    (u.bank = 0x00#8 ∧ ∃ i < 2, s.commitAddr i = 0x2D#7 ∧
      (execState (s.commitAccess 1) (execState (s.commitAccess 0) u)).regAt 0x2D#7 = s.staged (1 + i)) := by
  by_cases hSecond : (execState (s.commitAccess 0) u).bank = 0x00#8 ∧ s.commitAddr 1 = 0x2D#7
  · have hBank := commitAccess_bank_of_next_intStatus u hSecond.2
    exact .inr ⟨hBank ▸ hSecond.1, 1, by decide, hSecond.2, by rw [commitAccess_intStatus, if_pos hSecond]⟩
  · rw [commitAccess_intStatus, if_neg hSecond, commitAccess_intStatus]
    by_cases hFirst : u.bank = 0x00#8 ∧ s.commitAddr 0 = 0x2D#7
    · exact .inr ⟨hFirst.1, 0, by decide, hFirst.2, if_pos hFirst⟩
    · exact .inl (if_neg hFirst)

/-- Every step keeps the flags, or it is one of the two bus accesses of R131 in bank 0. -/
theorem StepKind.flagsStay_or_access {s t : State} (h : StepKind s t) :
    s.FlagsStay t ∨ (s.bank = 0x00#8 ∧ (s.StatusReadToClear t ∨ s.StatusCommitted t)) := by
  cases h with
  | wait _ => exact .inl (.of_eq rfl)
  | fall now rest _ _ => exact .inl (.of_eq rfl)
  | rise now rest _ _ => exact .inl (.of_eq rfl)
  | commitOne now rest hInbox _ hWrite hIdx =>
    have hStatus := commitAccess_intStatus (s.arrive now rest) (s.arrive now rest).deselect 0
    by_cases hStore : s.bank = 0x00#8 ∧ s.commitAddr 0 = 0x2D#7
    · exact .inr ⟨hStore.1, .inr ⟨now, rest, 0, hInbox, hWrite, by decide, hIdx, hStore.2,
        hStatus.trans (if_pos hStore)⟩⟩
    · exact .inl (.of_eq (hStatus.trans (if_neg hStore)))
  | commitTwo now rest hInbox _ hWrite hIdx =>
    rcases commitTwo_intStatus (s.arrive now rest) (s.arrive now rest).deselect with hSame | ⟨hBank, i, hi, hAddr, hStatus⟩
    · exact .inl (.of_eq hSame)
    · exact .inr ⟨hBank, .inr ⟨now, rest, i, hInbox, hWrite, hi, by omega, hAddr, hStatus⟩⟩
  | command now rest b _ _ =>
    rw [execState_decodeCommand]
    exact .inl (.of_eq rfl)
  | read now rest b hInbox hIdx hRead =>
    rcases readAccess_intStatus s.regAddr (s.arrive now rest) with hStay | ⟨hBank, hAddr, hClear⟩
    · exact .inl hStay
    · rw [hClear]
      exact .inr ⟨hBank, .inl ⟨now, b, rest, hInbox, hIdx, hRead, hAddr, rfl, by simp⟩⟩
  | staged now rest b _ _ _ _ => exact .inl (.of_eq rfl)
  | excess now rest b _ _ _ => exact .inl (.of_eq rfl)
  | anomaly now rest w _ =>
    obtain ⟨out, n, hAnomaly⟩ := State.anomaly_eq (s.arrive now rest) w
    rw [hAnomaly]
    exact .inl (.of_eq rfl)
  | tick now rest d p _ _ _ => exact .inl ((s.arrive now rest).tick_flagsStay d)
  | amp now rest w q _ => exact .inl (.of_eq (State.writeAmp_regAt _ w q _))

/-- Settles O49: a step that clears a bit does not keep the flags, so it is one of the two accesses. This holds for every
bit of INT_STATUS; the two flags are two of them. -/
theorem flagsStayUntilReadOrWritten : Obligations.FlagsStayUntilReadOrWritten := by
  intro s t k _ hStep hSet hClear
  rcases (step_kind hStep).flagsStay_or_access with hStay | hAccess
  · exact absurd (hStay k hSet) (by simp [hClear])
  · exact hAccess

end Sys2Proof.Machine
end

section
/-! PROOF. The decoder and the encoder are inverse to each other (30_encoding.md R66 to R73, R76). -/
namespace Sys2Proof.Machine

/-- In the command phase every byte is an instruction (R71). -/
theorem decode_command_cons (b : Byte) (rest : List Byte) :
    decode .command (b :: rest) = .instr (decodeCommand b) rest := rfl

/-- A read access word stands alone. -/
theorem decode_access_read {b : Byte} (h : isReadByte b = true) (rest : List Byte) :
    decode .access (b :: rest) = .instr (decodeRead b) rest := by
  simp [decode, h]

/-- A write access word takes its data byte along. -/
theorem decode_access_write {b : Byte} (h : isReadByte b = false) (v : Byte) (rest : List Byte) :
    decode .access (b :: v :: rest) = .instr (decodeWrite b v) rest := by
  simp [decode, h]

/-- A write access word without a data byte is rejected. -/
theorem decode_access_write_short {b : Byte} (h : isReadByte b = false) : decode .access [b] = .noDataByte := by
  simp [decode, h]

/-- The command byte of a direction and an address (R66). -/
theorem decodeCommand_accessWord (r : Bool) (a : RegAddr) :
    decodeCommand (accessWord r a) = if r then .rd a else .wr a := by
  unfold decodeCommand
  rw [isReadByte_accessWord, addrField_accessWord]

/-- The generic read row is reached from every address but the two with a row of their own (R73). -/
theorem decodeRead_accessWord_of_ne {a : RegAddr} (h1 : a ≠ 0x2D#7) (h2 : a ≠ 0x30#7) :
    decodeRead (accessWord true a) = .rdReg a := by
  rcases decodeRead_cases a with ⟨h, _⟩ | ⟨h, _⟩ | ⟨_, _, h⟩
  · exact absurd h h1
  · exact absurd h h2
  · exact h

/-- The generic write row is reached from every address but the three with a row of their own (R73). -/
theorem decodeWrite_accessWord_of_ne {a : RegAddr} (v : Byte) (h1 : a ≠ 0x76#7) (h2 : a ≠ 0x50#7) (h3 : a ≠ 0x30#7) :
    decodeWrite (accessWord false a) v = .wrReg a v := by
  rcases decodeWrite_cases a v with ⟨h, _⟩ | ⟨h, _⟩ | ⟨h, _⟩ | ⟨_, _, _, h⟩
  · exact absurd h h1
  · exact absurd h h2
  · exact absurd h h3
  · exact h

/-- Settles O3: in its own phase, each instruction's first byte takes the decoder to its own row; for the two generic access
rows that is what well-formedness asks of the address. -/
theorem decodeEncodeRoundTrip : Obligations.DecodeEncodeRoundTrip := by
  intro i rest hWf
  cases i with
  | rd a => exact congrArg (Decoded.instr · rest) (decodeCommand_accessWord true a)
  | wr a => exact congrArg (Decoded.instr · rest) (decodeCommand_accessWord false a)
  | rdIntStatus => rfl
  | rdFifoData => rfl
  | rdReg a =>
    simp only [Instr.wellFormed, Bool.and_eq_true, bne_iff_ne] at hWf
    obtain ⟨hStatus, hFifo⟩ := hWf
    calc decode .access (accessWord true a :: rest) = .instr (decodeRead (accessWord true a)) rest :=
          decode_access_read (isReadByte_accessWord true a) rest
      _ = .instr (.rdReg a) rest := by rw [decodeRead_accessWord_of_ne hStatus hFifo]
  | wrRegBankSel v => rfl
  | wrAccelConfig0 v => rfl
  | wrFifoData v => rfl
  | wrReg a v =>
    simp only [Instr.wellFormed, Bool.and_eq_true, bne_iff_ne] at hWf
    obtain ⟨⟨hFifo, hConfig⟩, hBank⟩ := hWf
    calc decode .access (accessWord false a :: v :: rest) = .instr (decodeWrite (accessWord false a) v) rest :=
          decode_access_write (isReadByte_accessWord false a) v rest
      _ = .instr (.wrReg a v) rest := by rw [decodeWrite_accessWord_of_ne v hBank hConfig hFifo]

/-- What a command byte decodes to is encoded by that byte (R66, R76). -/
theorem encode_decodeCommand (b : Byte) : encode (decodeCommand b) = [b] ∧ (decodeCommand b).wellFormed = true ∧
    (decodeCommand b).phase = .command := by
  revert b
  decide

/-- What a read access word decodes to is encoded by that word (R72, R73). -/
theorem encode_decodeRead {b : Byte} (h : isReadByte b = true) :
    encode (decodeRead b) = [b] ∧ (decodeRead b).wellFormed = true := by
  revert b
  decide

/-- What a write access word and its data byte decode to is encoded by the two (R72, R73). -/
theorem encode_decodeWrite {b : Byte} (h : isReadByte b = false) (v : Byte) :
    encode (decodeWrite b v) = [b, v] ∧ (decodeWrite b v).wellFormed = true := by
  have hWord : accessWord false (addrField b) = b := h ▸ accessWord_fields b
  rw [← hWord]
  rcases decodeWrite_cases (addrField b) v with ⟨ha, hi⟩ | ⟨ha, hi⟩ | ⟨ha, hi⟩ | ⟨h1, h2, h3, hi⟩ <;> rw [hi]
  · rw [ha]; exact ⟨rfl, rfl⟩
  · rw [ha]; exact ⟨rfl, rfl⟩
  · rw [ha]; exact ⟨rfl, rfl⟩
  · exact ⟨rfl, by simp [Instr.wellFormed, h1, h2, h3]⟩

/-- Settles O4: along the decoder's branches, each branch's instruction is encoded by the bytes the branch took. -/
theorem decodedBytesAreTheEncoding : Obligations.DecodedBytesAreTheEncoding := by
  intro p bytes rest i hDecode
  cases bytes with
  | nil => cases p <;> cases hDecode
  | cons b bytes =>
    cases p with
    | command =>
      cases hDecode
      obtain ⟨hEncode, hWf, hPhase⟩ := encode_decodeCommand b
      exact ⟨hWf, hPhase, by rw [hEncode]; rfl⟩
    | access =>
      cases hRead : isReadByte b with
      | true =>
        rw [decode_access_read hRead] at hDecode
        cases hDecode
        obtain ⟨hEncode, hWf⟩ := encode_decodeRead hRead
        exact ⟨hWf, decodeRead_phase b, by rw [hEncode]; rfl⟩
      | false =>
        cases bytes with
        | nil => rw [decode_access_write_short hRead] at hDecode; cases hDecode
        | cons v bytes =>
          rw [decode_access_write hRead] at hDecode
          cases hDecode
          obtain ⟨hEncode, hWf⟩ := encode_decodeWrite hRead v
          exact ⟨hWf, decodeWrite_phase b v, by rw [hEncode]; rfl⟩

/-- Bit 7 = 1 is a read (R67). -/
theorem isReadByte_eq_true_iff (b : Byte) : isReadByte b = true ↔ b &&& 0x80#8 = 0x80#8 := by
  revert b
  decide

/-- Settles O1: bit 7 selects the read or the write rows, and within them the exact words are tested before the generic
row. -/
theorem accessWordSelectsItsClass : Obligations.AccessWordSelectsItsClass := by
  intro aw v
  cases hRead : isReadByte aw with
  | true =>
    have hBit := (isReadByte_eq_true_iff aw).1 hRead
    refine ⟨decodeRead aw, [v], decode_access_read hRead [v], ?_, ?_, ?_, ?_, ?_, ?_, ?_⟩
    · rintro rfl; rfl
    · rintro rfl; rfl
    · intro _ h1 h2
      rw [decodeRead, if_neg h1, if_neg h2, addrField_eq_setWidth]
    · rintro rfl; exact absurd hBit (by decide)
    · rintro rfl; exact absurd hBit (by decide)
    · rintro rfl; exact absurd hBit (by decide)
    · intro h0
      exact absurd (hBit.symm.trans h0) (by decide)
  | false =>
    have hBit := (isReadByte_eq_false_iff aw).1 hRead
    refine ⟨decodeWrite aw v, [], decode_access_write hRead v [], ?_, ?_, ?_, ?_, ?_, ?_, ?_⟩
    · rintro rfl; exact absurd hBit (by decide)
    · rintro rfl; exact absurd hBit (by decide)
    · intro h1
      exact absurd (h1.symm.trans hBit) (by decide)
    · rintro rfl; rfl
    · rintro rfl; rfl
    · rintro rfl; rfl
    · intro _ h1 h2 h3
      rw [decodeWrite, if_neg h1, if_neg h2, if_neg h3, addrField_eq_setWidth]

/-- Settles O2: the command decoder tests bit 7 and takes the address from bits 6:0. -/
theorem everyCommandByteDecodes : Obligations.EveryCommandByteDecodes := by
  intro b rest
  rw [decode_command_cons, decodeCommand, addrField_eq_setWidth]
  simp only [isReadByte_eq_true_iff]

/-- Settles O5: the decoder evaluates to the row on each of the nine words. -/
theorem specWordsDecode : Obligations.SpecWordsDecode :=
  ⟨rfl, rfl, rfl, rfl, rfl, rfl, rfl, rfl, rfl⟩

end Sys2Proof.Machine
end

section
/-! PROOF. The read and the write accesses case by case (40_register_file.md R80 to R88), and what the statements say of
them. -/
namespace Sys2Proof.Machine

/-- What a read access does, by BANK, address and fill level (R80 to R83, R94). -/
theorem readAccess_cases (a : RegAddr) (s : State) :
    (s.bank ≠ 0x00#8 ∧ execState (decodeRead (accessWord true a)) s = s.respond 0x00#8) ∨
    (s.bank = 0x00#8 ∧ a = 0x2D#7 ∧
      execState (decodeRead (accessWord true a)) s = (s.writeReg 0x2D#7 0x00#8).respond (s.regAt 0x2D#7)) ∨
    (s.bank = 0x00#8 ∧ a = 0x30#7 ∧ s.fifoCnt = 0 ∧
      execState (decodeRead (accessWord true a)) s = s.respond 0x80#8) ∨
    (s.bank = 0x00#8 ∧ a = 0x30#7 ∧ s.fifoCnt ≠ 0 ∧
      execState (decodeRead (accessWord true a)) s = s.takeOne.updateCount.respond (s.fifoMem.read s.fifoR)) ∨
    (s.bank = 0x00#8 ∧ a ≠ 0x2D#7 ∧ a ≠ 0x30#7 ∧
      execState (decodeRead (accessWord true a)) s = s.respond (s.regAt a)) := by
  by_cases hBank : s.bank = 0x00#8
  · rcases decodeRead_cases a with ⟨ha, hInstr⟩ | ⟨ha, hInstr⟩ | ⟨h1, h2, hInstr⟩ <;>
      rw [hInstr, execState, State.gateRead_bank0 hBank]
    · exact .inr (.inl ⟨hBank, ha, rfl⟩)
    · by_cases hEmpty : s.fifoCnt = 0
      · rw [State.pop_empty hEmpty]
        exact .inr (.inr (.inl ⟨hBank, ha, hEmpty, rfl⟩))
      · rw [State.pop_nonempty hEmpty]
        exact .inr (.inr (.inr (.inl ⟨hBank, ha, hEmpty, rfl⟩)))
    · exact .inr (.inr (.inr (.inr ⟨hBank, h1, h2, rfl⟩)))
  · refine .inl ⟨hBank, ?_⟩
    rcases decodeRead_cases a with ⟨_, hInstr⟩ | ⟨_, hInstr⟩ | ⟨_, _, hInstr⟩ <;>
      rw [hInstr, execState, State.gateRead_other hBank]

/-- What a write access does, by BANK and address (R84 to R88). -/
theorem writeAccess_cases (a : RegAddr) (v : Byte) (s : State) :
    (a = 0x76#7 ∧ execState (decodeWrite (accessWord false a) v) s = s.setBank v) ∨
    (s.bank = 0x00#8 ∧ a = 0x50#7 ∧ execState (decodeWrite (accessWord false a) v) s = s.writeOdr v) ∨
    (s.bank = 0x00#8 ∧ a ≠ 0x76#7 ∧ a ≠ 0x50#7 ∧ a ≠ 0x30#7 ∧
      execState (decodeWrite (accessWord false a) v) s = s.writeReg a v) ∨
    (a ≠ 0x76#7 ∧ (s.bank ≠ 0x00#8 ∨ a = 0x30#7) ∧ execState (decodeWrite (accessWord false a) v) s = s) := by
  by_cases hBank : s.bank = 0x00#8
  · rcases decodeWrite_cases a v with ⟨ha, hInstr⟩ | ⟨ha, hInstr⟩ | ⟨ha, hInstr⟩ | ⟨h1, h2, h3, hInstr⟩ <;>
      rw [hInstr, execState]
    · exact .inl ⟨ha, rfl⟩
    · rw [State.gateWrite_bank0 hBank]
      exact .inr (.inl ⟨hBank, ha, rfl⟩)
    · rw [State.gateWrite_bank0 hBank]
      exact .inr (.inr (.inr ⟨by rw [ha]; decide, .inr ha, rfl⟩))
    · rw [State.gateWrite_bank0 hBank]
      exact .inr (.inr (.inl ⟨hBank, h1, h2, h3, rfl⟩))
  · rcases decodeWrite_cases a v with ⟨ha, hInstr⟩ | ⟨ha, hInstr⟩ | ⟨ha, hInstr⟩ | ⟨h1, _, _, hInstr⟩ <;>
      rw [hInstr, execState]
    · exact .inl ⟨ha, rfl⟩
    · rw [State.gateWrite_other hBank]
      exact .inr (.inr (.inr ⟨by rw [ha]; decide, .inl hBank, rfl⟩))
    · rw [State.gateWrite_other hBank]
      exact .inr (.inr (.inr ⟨by rw [ha]; decide, .inl hBank, rfl⟩))
    · rw [State.gateWrite_other hBank]
      exact .inr (.inr (.inr ⟨h1, .inl hBank, rfl⟩))

/-- A word with bit 7 = 1 is the read access word of its address. -/
theorem accessWord_of_read {b : Byte} (h : b &&& 0x80#8 = 0x80#8) : accessWord true (addrField b) = b :=
  (isReadByte_eq_true_iff b).2 h ▸ accessWord_fields b

/-- A word with bit 7 = 0 is the write access word of its address. -/
theorem accessWord_of_write {b : Byte} (h : b &&& 0x80#8 = 0x00#8) : accessWord false (addrField b) = b :=
  (isReadByte_eq_false_iff b).2 h ▸ accessWord_fields b

/-- A write leaves every cell but its own. -/
theorem State.writeReg_regsSameBut (s : State) (a : RegAddr) (v : Byte) : s.RegsSameBut (s.writeReg a v) [a] := by
  intro b hb
  rw [State.writeReg_regAt, if_neg (by simpa using hb)]

theorem exec_rdIntStatus (s : State) : exec .rdIntStatus s = answer (s.gateRead State.readToClear) := rfl

/-- RD_INT_STATUS in bank 0 answers the cell and clears it (R82). -/
theorem exec_rdIntStatus_bank0 {s : State} (h : s.bank = 0x00#8) :
    exec .rdIntStatus s = .next ((s.writeReg 0x2D#7 0x00#8).respond (s.regAt 0x2D#7)) := by
  rw [exec_rdIntStatus, State.gateRead_bank0 h]
  rfl

/-- Settles O13: the read clears the one cell it answers, so the second read answers the 0x00 that the first left. -/
theorem rdIntStatusMeaning : Obligations.RdIntStatusMeaning := by
  intro s hBank
  refine ⟨_, _, exec_rdIntStatus_bank0 hBank, exec_rdIntStatus_bank0 (by simpa using hBank), rfl, ?cleared, ?others,
    rfl, ?second, ?still⟩
  case cleared => simp
  case others => exact s.writeReg_regsSameBut _ _
  case second => simp
  case still => simp

/-- Settles O17: the bank check stands before every read rule. -/
theorem otherBankReadsZero : Obligations.OtherBankReadsZero := by
  intro s aw i rest hBank hRead hDecode
  rw [decode_access_read ((isReadByte_eq_true_iff aw).2 hRead)] at hDecode
  cases hDecode
  rw [exec_eq_execState, ← accessWord_of_read hRead]
  rcases readAccess_cases (addrField aw) s with ⟨_, h⟩ | ⟨h, _⟩ | ⟨h, _⟩ | ⟨h, _⟩ | ⟨h, _⟩
  · rw [h]; rfl
  all_goals exact absurd h hBank

/-- Settles O18: in bank 0 the read answers the cell REG[0x76], which the invariant keeps at its reset value; in any other
bank the bank check answers 0x00. -/
theorem bankSelectReadsZero : Obligations.BankSelectReadsZero := by
  intro s hInv
  by_cases hBank : s.bank = 0x00#8
  · calc exec (.rdReg 0x76#7) s = .next { s with miso := s.regAt 0x76#7 :: s.miso } :=
          rdRegMeaning s 0x76#7 hBank (by decide) (by decide)
      _ = .next { s with miso := 0x00#8 :: s.miso } := by rw [hInv.bank_cell]
  · rw [exec_rdReg, State.gateRead_other hBank]
    rfl

/-- In bank 0 a plain write is the store (R85). -/
theorem execState_wrReg {s : State} (h : s.bank = 0x00#8) (a : RegAddr) (v : Byte) :
    execState (.wrReg a v) s = s.writeReg a v :=
  State.gateWrite_bank0 h (fun t => t.writeReg a v)

/-- In bank 0 a plain read answers the cell (R81). -/
theorem execState_rdReg {s : State} (h : s.bank = 0x00#8) (a : RegAddr) :
    execState (.rdReg a) s = s.respond (s.regAt a) := by
  rw [execState, State.gateRead_bank0 h]
  rfl

/-- Settles O19: with BANK = 0 the bank check lets the store of the one cell through. -/
theorem wrRegMeaning : Obligations.WrRegMeaning := by
  intro s a v hBank _ _ _
  refine ⟨s.writeReg a v, ?_, by simp, s.writeReg_regsSameBut a v, rfl⟩
  rw [exec_eq_execState, execState_wrReg hBank]

theorem exec_wrRegBankSel (v : Byte) (s : State) : exec (.wrRegBankSel v) s = .next (s.setBank v) := rfl

/-- Settles O20: the write goes to BANK alone, with no bank check before it. -/
theorem wrRegBankSelMeaning : Obligations.WrRegBankSelMeaning := fun s v =>
  ⟨s.setBank v, exec_wrRegBankSel v s, rfl, fun _ _ => rfl, rfl⟩

theorem exec_wrAccelConfig0 (v : Byte) (s : State) :
    exec (.wrAccelConfig0 v) s = .next (s.gateWrite (State.writeOdr v)) := rfl

/-- A byte whose code has the rate r is stored and restarts the timer (R87, R106). -/
theorem State.writeOdr_some {s : State} {v : Byte} {r : Nat} (h : Params.rate s.par (odrCode v) = some r) :
    s.writeOdr v = (s.writeReg 0x50#7 v).setTimer (some (10 ^ 12 / r)) (s.now + 10 ^ 12 / r) :=
  State.timerReconfigure_some (s := s.writeReg 0x50#7 v) h

/-- A byte whose code has no rate is stored, and no more (R87 (a)). -/
theorem State.writeOdr_none {s : State} {v : Byte} (h : Params.rate s.par (odrCode v) = none) :
    s.writeOdr v = s.writeReg 0x50#7 v :=
  State.timerReconfigure_none (s := s.writeReg 0x50#7 v) h

/-- With a rate or without, the byte is stored in its cell and nowhere else (R87). -/
theorem State.writeOdr_regAt (v : Byte) (s : State) (b : RegAddr) :
    (s.writeOdr v).regAt b = if b = 0x50#7 then v else s.regAt b := by
  rw [State.writeOdr, State.timerReconfigure_eq]
  exact State.writeReg_regAt s 0x50#7 b v

theorem State.writeOdr_regsSameBut (v : Byte) (s : State) : s.RegsSameBut (s.writeOdr v) [0x50#7] := by
  intro b hb
  rw [State.writeOdr_regAt, if_neg (by simpa using hb)]

/-- The rate that the statements look up is the one the timer restart looks up (R104). -/
theorem rate_of_odrTable {p : Params} {v : Byte} {o : Option Nat} (h : p.odrTable[v.toNat % 16]? = some o) :
    Params.rate p (odrCode v) = o :=
  Option.some.inj ((odrTable_getElem? p v).symm.trans h)

/-- Settles O21: the bank check lets the write through, and the code's rate restarts the timer. -/
theorem wrAccelConfig0RestartsTimer : Obligations.WrAccelConfig0RestartsTimer := by
  intro s v r hBank hRate
  have hOdr := State.writeOdr_some (rate_of_odrTable hRate)
  refine ⟨s.writeOdr v, ?_, by simp [State.writeOdr_regAt], s.writeOdr_regsSameBut v, ?_, ?_, ?_⟩
  · rw [exec_wrAccelConfig0, State.gateWrite_bank0 hBank]
  all_goals rw [hOdr]; rfl

/-- Settles O22: the bank check lets the write through, and without a rate it is the plain store. -/
theorem wrAccelConfig0WithoutRateKeepsTimer : Obligations.WrAccelConfig0WithoutRateKeepsTimer := by
  intro s v hBank hRate
  refine ⟨s.writeOdr v, ?_, by simp [State.writeOdr_regAt], s.writeOdr_regsSameBut v, ?_⟩
  · rw [exec_wrAccelConfig0, State.gateWrite_bank0 hBank]
  · rw [State.writeOdr_none (rate_of_odrTable hRate)]
    rfl

/-- Code 0 has no rate and code 6 has 1,000,000 millihertz (R103 (a), (b)). -/
theorem odrTable_zero_six {p : Params} (h : p.ok = true) :
    p.odrTable[0] = none ∧ p.odrTable[6] = some 1000000 := by
  simp only [Params.ok, Bool.and_eq_true, beq_iff_eq] at h
  obtain ⟨⟨⟨⟨⟨_, hZero⟩, hSix⟩, _⟩, _⟩, _⟩ := h
  exact ⟨hZero, hSix⟩

/-- The low four bits of a byte as a number (R104). -/
theorem lowNibble_toNat (v : Byte) : (v &&& 0x0F#8).toNat = v.toNat % 16 := by
  revert v
  decide

/-- Settles O23: the constraints give the table's entries at 6 and 0, and each is one of the two cases of the write. -/
theorem odrCodeSixAndZero : Obligations.OdrCodeSixAndZero := by
  intro s v hOk hBank
  obtain ⟨hZero, hSix⟩ := odrTable_zero_six hOk
  refine ⟨fun hv => ?six, fun hv => ?zero⟩
  case six =>
    have hCode : v.toNat % 16 = 6 := by rw [← lowNibble_toNat, hv]; rfl
    obtain ⟨t, hExec, _, _, hPeriod, hNext, _⟩ :=
      wrAccelConfig0RestartsTimer s v 1000000 hBank (by simp [hCode, hSix])
    exact ⟨t, hExec, hPeriod, hNext⟩
  case zero =>
    have hCode : v.toNat % 16 = 0 := by rw [← lowNibble_toNat, hv]; rfl
    obtain ⟨t, hExec, _, _, hFrame⟩ := wrAccelConfig0WithoutRateKeepsTimer s v hBank (by simp [hCode, hZero])
    exact ⟨t, hExec, by rw [hFrame]; exact ⟨rfl, rfl⟩⟩

/-- Settles O24: both branches of the bank check leave the state. -/
theorem wrFifoDataMeaning : Obligations.WrFifoDataMeaning := by
  intro s v
  rw [exec_eq_execState, execState, State.gateWrite]
  exact congrArg Host.Outcome.next (ite_self s)

/-- Settles O25: in another bank the only write access with an effect is the one to 0x76. -/
theorem otherBankDropsWrites : Obligations.OtherBankDropsWrites := by
  intro s aw v i rest hBank hWrite hDecode
  rw [decode_access_write ((isReadByte_eq_false_iff aw).2 hWrite)] at hDecode
  cases hDecode
  have hWord := accessWord_of_write hWrite
  have hSel : aw = 0x76#8 ↔ addrField aw = 0x76#7 := by
    rw [← (accessWord_write_eq (addrField aw)).1, hWord]
  have hCases := writeAccess_cases (addrField aw) v s
  rw [hWord] at hCases
  rw [exec_eq_execState]
  simp only [hSel]
  rcases hCases with ⟨ha, h⟩ | ⟨h, _⟩ | ⟨h, _⟩ | ⟨ha, _, h⟩
  · rw [h, if_pos ha]; rfl
  · exact absurd h hBank
  · exact absurd h hBank
  · rw [h, if_neg ha]

/-- The command beat leaves the two data slots of STAGE (R112). -/
theorem State.commandBeat_staged_succ (s : State) (r : Bool) (a : RegAddr) (j : Nat) :
    (s.commandBeat r a).staged (j + 1) = s.staged (j + 1) := by
  simp [State.staged, State.commandBeat, State.respondFree, Vector.getElem?_set_ne]

/-- Settles O10: both are the one command beat, with the direction that the instruction names. -/
theorem commandBeatMeaning : Obligations.CommandBeatMeaning := by
  intro s a _ _
  have hMeaning : ∀ r : Bool, ∃ v, (s.commandBeat r a).miso = v :: s.miso := fun r => ⟨_, rfl⟩
  exact ⟨⟨s.commandBeat true a, rfl, rfl, rfl, rfl, s.commandBeat_staged_zero _ _, s.commandBeat_staged_succ _ _ 0,
      s.commandBeat_staged_succ _ _ 1, hMeaning true, rfl⟩,
    ⟨s.commandBeat false a, rfl, rfl, rfl, rfl, s.commandBeat_staged_zero _ _, s.commandBeat_staged_succ _ _ 0,
      s.commandBeat_staged_succ _ _ 1, hMeaning false, rfl⟩⟩

end Sys2Proof.Machine
end

section
/-! PROOF. The count refresh, the pop and the push (41_fifo_engine.md R90 to R94): the registers they leave. -/
namespace Sys2Proof.Machine

/-- FIFO_WM when the record count is at or above the watermark, and no bit otherwise (R92 (d)). -/
def State.wmBit (s : State) : Byte :=
  if (s.regAt 0x60#7).toNat + 256 * (s.regAt 0x61#7).toNat ≤ s.fifoCnt / 16 then 0x04#8 else 0x00#8

/-- FIFO_FULL when n more bytes do not fit, and no bit otherwise (R90, R91). -/
def State.fullBit (s : State) (n : Nat) : Byte := if s.par.fifoCap < s.fifoCnt + n then 0x02#8 else 0x00#8

theorem State.watermark_toNat (s : State) :
    s.watermark.toNat = (s.regAt 0x60#7).toNat + 256 * (s.regAt 0x61#7).toNat :=
  le16_toNat _ _

theorem State.recordCount_eq (s : State) : s.recordCount = s.fifoCnt / 16 := rfl

/-- An OR with a bit that a condition selects. -/
theorem or_ite_zero (c : Prop) [Decidable c] (x b : Byte) :
    (x ||| if c then b else 0x00#8) = if c then x ||| b else x := by
  split_ifs
  · rfl
  · simp

/-- The watermark test only adds FIFO_WM. -/
theorem State.statusAfterCount_eq (s : State) : s.statusAfterCount = s.regAt 0x2D#7 ||| s.wmBit := by
  rw [State.wmBit, or_ite_zero]
  simp only [State.statusAfterCount, State.watermarkReached, State.watermark_toNat, State.recordCount_eq,
    decide_eq_true_eq]
  rfl

theorem State.updateCount_intStatus (s : State) : s.updateCount.regAt 0x2D#7 = s.regAt 0x2D#7 ||| s.wmBit :=
  (State.updateCount_regAt s 0x2D#7).trans s.statusAfterCount_eq

theorem State.updateCount_countLo (s : State) : (s.updateCount.regAt 0x2E#7).toNat = s.fifoCnt / 16 % 256 := by
  have hCell : s.updateCount.regAt 0x2E#7 = lowByte (countHalf s.recordCount) := State.updateCount_regAt s 0x2E#7
  rw [hCell, lowByte_toNat, countHalf, BitVec.toNat_ofNat, State.recordCount_eq]
  omega

/-- The high byte holds the rest of a count of 16 bits. -/
theorem State.updateCount_countHi {s : State} (h : s.fifoCnt ≤ 16 * 65535) :
    (s.updateCount.regAt 0x2F#7).toNat = s.fifoCnt / 16 / 256 := by
  have hCell : s.updateCount.regAt 0x2F#7 = highByte (countHalf s.recordCount) := State.updateCount_regAt s 0x2F#7
  rw [hCell, highByte_toNat, countHalf, BitVec.toNat_ofNat, State.recordCount_eq]
  omega

/-- After the refresh a bus master reads the record count from the pair (R22, R92). -/
theorem State.updateCount_countPair {s : State} (h : s.fifoCnt ≤ 16 * 65535) :
    s.updateCount.countPair = s.fifoCnt / 16 := by
  rw [State.countPair, State.updateCount_countLo, State.updateCount_countHi h]
  omega

theorem State.updateCount_regsSameBut (s : State) : s.RegsSameBut s.updateCount [0x2D#7, 0x2E#7, 0x2F#7] := by
  intro a ha
  simp only [List.mem_cons, List.not_mem_nil, or_false, not_or] at ha
  obtain ⟨h1, h2, h3⟩ := ha
  exact State.updateCount_regAt_other s h1 h2 h3

@[simp] theorem State.updateCount_fifoCnt (s : State) : s.updateCount.fifoCnt = s.fifoCnt := by
  rw [State.updateCount_eq]

/-- Settles O29: the pair is the record count split at bit 8, and INT_STATUS takes the outcome of the watermark test. -/
theorem updateCountMeaning : Obligations.UpdateCountMeaning := by
  intro s hCnt
  refine ⟨_, rfl, s.updateCount_countLo, State.updateCount_countHi hCnt, ?_, s.updateCount_regsSameBut, s.updateCount_eq⟩
  rw [State.updateCount_intStatus, State.wmBit, or_ite_zero]

/-- RD_FIFO_DATA in bank 0 with bytes queued takes one, refreshes the count and answers the byte at FIFO_R (R83, R93). -/
theorem exec_rdFifoData_nonempty {s : State} (hBank : s.bank = 0x00#8) (h : s.fifoCnt ≠ 0) :
    exec .rdFifoData s = .next (s.takeOne.updateCount.respond (s.fifoMem.read s.fifoR)) := by
  rw [exec_rdFifoData, State.gateRead_bank0 hBank, State.pop_nonempty h]
  rfl

/-- Settles O15: the pop moves FIFO_R and FIFO_CNT, and the count refresh after it does the rest. -/
theorem rdFifoDataPopsOneByte : Obligations.RdFifoDataPopsOneByte := by
  intro s hBank hPos hCnt
  have hFrame := s.takeOne_updateCount_eq
  have hTaken : s.takeOne.fifoCnt = s.fifoCnt - 1 := rfl
  refine ⟨_, exec_rdFifoData_nonempty hBank (by omega), ?miso, ?fifoR, ?fifoCnt, ?pair, ?status, ?others, ?frame⟩
  case miso => rw [hFrame]; rfl
  case fifoR => rw [hFrame]; rfl
  case fifoCnt => rw [State.respond_fifoCnt, State.updateCount_fifoCnt, hTaken]; omega
  case pair =>
    rw [State.respond_fifoCnt, State.updateCount_fifoCnt]
    exact State.updateCount_countPair (by omega)
  case status =>
    rw [State.respond_fifoCnt, State.updateCount_fifoCnt, State.respond_regAt, State.updateCount_intStatus, State.wmBit,
      or_ite_zero]
    rfl
  case others => exact s.takeOne.updateCount_regsSameBut
  case frame => rw [hFrame]; rfl

/-- INT_STATUS before the count refresh of a push: FIFO_FULL is added when the bytes do not fit (R90, R91). -/
theorem State.countIn_intStatus (s : State) (buf : List Byte) :
    ((s.copyIn buf).countIn buf.length).regAt 0x2D#7 = s.regAt 0x2D#7 ||| s.fullBit buf.length := by
  rw [State.fullBit, or_ite_zero]
  unfold State.countIn State.pushOverflow
  split_ifs with h1 h2 h2
  · rw [State.raiseFlag_regAt, if_pos rfl]
    rfl
  · exact absurd h1 h2
  · exact absurd h2 h1
  · rfl

theorem State.push_fifoCnt (s : State) (buf : List Byte) :
    (s.push buf).fifoCnt = if s.par.fifoCap < s.fifoCnt + buf.length then s.fifoCnt else s.fifoCnt + buf.length := by
  rw [State.push_eq]

/-- A push writes no register cell but INT_STATUS and the count pair (R90). -/
theorem State.push_regsSameBut (s : State) (buf : List Byte) : s.RegsSameBut (s.push buf) [0x2D#7, 0x2E#7, 0x2F#7] := by
  intro a ha
  have hStatus : a ≠ 0x2D#7 := by rintro rfl; simp at ha
  exact (State.updateCount_regsSameBut _ a ha).trans (s.countIn_regAt_other buf hStatus)

/-- INT_STATUS after a push: FIFO_FULL exactly when the bytes did not fit, FIFO_WM by the watermark test at the new count,
and no other bit (R90 to R92). -/
theorem State.push_intStatus (s : State) (buf : List Byte) :
    (s.push buf).regAt 0x2D#7 = s.regAt 0x2D#7 ||| s.fullBit buf.length ||| (s.push buf).wmBit := by
  have hLo : (s.push buf).regAt 0x60#7 = ((s.copyIn buf).countIn buf.length).regAt 0x60#7 :=
    State.updateCount_regAt_other _ (by decide) (by decide) (by decide)
  have hHi : (s.push buf).regAt 0x61#7 = ((s.copyIn buf).countIn buf.length).regAt 0x61#7 :=
    State.updateCount_regAt_other _ (by decide) (by decide) (by decide)
  have hWm : (s.push buf).wmBit = ((s.copyIn buf).countIn buf.length).wmBit := by
    rw [State.wmBit, State.wmBit, hLo, hHi, State.push, State.updateCount_fifoCnt]
  rw [hWm, ← State.countIn_intStatus]
  exact State.updateCount_intStatus _

/-- After a push the pair holds the record count, whenever that has 16 bits (R90, R92). -/
theorem State.push_countPair {s : State} {buf : List Byte} (h : (s.push buf).fifoCnt ≤ 16 * 65535) :
    (s.push buf).countPair = (s.push buf).fifoCnt / 16 := by
  rw [State.push, State.updateCount_fifoCnt] at h ⊢
  exact State.updateCount_countPair h

/-- The watermark test sets bit 2 alone. -/
theorem State.wmBit_masked (s : State) (x : Byte) : (x ||| s.wmBit) &&& 0xFB#8 = x &&& 0xFB#8 := by
  have hBit : s.wmBit &&& 0xFB#8 = 0x00#8 := by
    rw [State.wmBit]
    split_ifs <;> rfl
  rw [BitVec.and_comm, BitVec.and_or_distrib_left, BitVec.and_comm _ s.wmBit, hBit, BitVec.or_zero, BitVec.and_comm]

theorem State.push_fifoMem (s : State) (buf : List Byte) :
    (s.push buf).fifoMem = writeRing s.par.fifoCap s.fifoW buf s.fifoMem := by
  rw [State.push_eq]

/-- The i-th byte of a push stands i places on from FIFO_W (R90). -/
theorem State.push_read {s : State} {buf : List Byte} (hInv : s.Inv) (hLen : buf.length ≤ s.par.fifoCap) {i : Nat}
    (hi : i < buf.length) : (s.push buf).fifoMem.read ((s.fifoW + i) % s.par.fifoCap) = buf[i] := by
  rw [State.push_fifoMem, writeRing_read hInv.mem_wf hLen hi]

/-- A push leaves the places that it does not reach (R90). -/
theorem State.push_read_other {s : State} {buf : List Byte} (hInv : s.Inv) {k : Nat}
    (hk : ∀ i, i < buf.length → (s.fifoW + i) % s.par.fifoCap ≠ k) :
    (s.push buf).fifoMem.read k = s.fifoMem.read k := by
  rw [State.push_fifoMem, writeRing_read_other hInv.mem_wf hk]

/-- Settles O27: the ring copy gives the bytes, and the count refresh the registers. -/
theorem pushThatFits : Obligations.PushThatFits := by
  intro s buf hInv hFits
  have hPush := s.push_eq buf
  have hNotFull : ¬ s.par.fifoCap < s.fifoCnt + buf.length := by omega
  rw [if_neg hNotFull, if_neg hNotFull] at hPush
  refine ⟨_, rfl, ?bytes, ?otherBytes, by rw [hPush], by rw [hPush], ?status, s.push_regsSameBut buf, ?frame⟩
  case bytes => exact fun i hi => State.push_read hInv (by omega) hi
  case otherBytes => exact fun k hk => State.push_read_other hInv hk
  case status =>
    rw [State.push_intStatus, State.wmBit_masked, State.fullBit, if_neg hNotFull, BitVec.or_zero]
  case frame => rw [hPush]

/-- Settles O28: the ring copy gives the bytes, the overflow FIFO_R and FIFO_FULL, and the count refresh the other
registers. -/
theorem pushThatOverflows : Obligations.PushThatOverflows := by
  intro s buf hInv hLen hFull
  have hPush := s.push_eq buf
  rw [if_pos hFull, if_pos hFull] at hPush
  have hCnt : (s.push buf).fifoCnt = s.fifoCnt := by rw [hPush]
  refine ⟨_, rfl, ?bytes, ?otherBytes, by rw [hPush], by rw [hPush], hCnt, ?pair, ?status, s.push_regsSameBut buf,
    ?frame⟩
  case bytes => exact fun i hi => State.push_read hInv hLen hi
  case otherBytes => exact fun k hk => State.push_read_other hInv hk
  case pair =>
    have hCap := (fifoCap_bounds hInv.par_ok).2
    have hLe := hInv.cnt_le
    rw [State.push_countPair (by omega), hCnt]
  case status =>
    rw [State.push_intStatus, State.wmBit_masked, State.fullBit, if_pos hFull]
    generalize s.regAt 0x2D#7 = x
    revert x
    decide
  case frame => rw [hPush]

end Sys2Proof.Machine
end

section
/-! PROOF. The FIFO as a queue of bytes (10_state.md R34): a pop takes its first byte, and a push appends to it. -/
namespace Sys2Proof.Machine

@[simp] theorem State.queue_length (s : State) : s.queue.length = s.fifoCnt := by
  simp [State.queue]

theorem State.queue_getElem (s : State) (k : Nat) (h : k < s.queue.length) :
    s.queue[k] = s.fifoMem.read ((s.fifoR + k) % s.par.fifoCap) := by
  simp [State.queue]

/-- Two places of the ring less than a turn apart are different. -/
theorem ring_places_ne {cap x y : Nat} (h1 : x < y) (h2 : y < x + cap) : x % cap ≠ y % cap := fun h =>
  absurd ((Nat.modEq_iff_dvd' h1.le).1 h) (Nat.not_dvd_of_pos_of_lt (by omega) (by omega))

/-- After the ring copy of a push the places from FIFO_R on hold the queue and then the new bytes, but for those places
that the copy came round to again (R34, R90). -/
theorem writeRing_read_append {s : State} {buf : List Byte} (hInv : s.Inv) (hLen : buf.length ≤ s.par.fifoCap) {j : Nat}
    (hj : j < (s.queue ++ buf).length) (hTurn : s.fifoCnt + buf.length ≤ j + s.par.fifoCap) :
    (writeRing s.par.fifoCap s.fifoW buf s.fifoMem).read ((s.fifoR + j) % s.par.fifoCap) = (s.queue ++ buf)[j] := by
  have hPlace : ∀ i, (s.fifoW + i) % s.par.fifoCap = (s.fifoR + (s.fifoCnt + i)) % s.par.fifoCap := by
    intro i
    rw [← hInv.index_eq, Nat.mod_add_mod, Nat.add_assoc]
  rw [List.length_append, State.queue_length] at hj
  rcases Nat.lt_or_ge j s.fifoCnt with hOld | hNew
  · rw [List.getElem_append_left (by simpa using hOld), State.queue_getElem, writeRing_read_other hInv.mem_wf]
    intro i hi
    rw [hPlace]
    exact (ring_places_ne (by omega) (by omega)).symm
  · rw [List.getElem_append_right (by simpa using hNew), ← writeRing_read hInv.mem_wf hLen, hPlace, State.queue_length,
      Nat.add_sub_cancel' hNew]

/-- Settles O30: on both paths, place by place from the new FIFO_R on. -/
theorem pushAppendsToQueue : Obligations.PushAppendsToQueue := by
  intro s buf hInv hLen
  have hCap := hInv.cnt_le
  have hCnt := s.push_fifoCnt buf
  have hPar : (s.push buf).par = s.par := by rw [State.push_eq]
  have hRead : (s.push buf).fifoR =
      if s.par.fifoCap < s.fifoCnt + buf.length then (s.fifoR + buf.length) % s.par.fifoCap else s.fifoR := by
    rw [State.push_eq]
  refine List.ext_getElem ?length fun k hk _ => ?byte
  case length =>
    simp only [State.queue_length, List.length_drop, List.length_append, hCnt]
    split_ifs <;> omega
  case byte =>
    rw [State.queue_length, hCnt] at hk
    rw [State.queue_getElem, State.push_fifoMem, hPar, hRead, List.getElem_drop]
    split_ifs at hk ⊢ with hFull
    · rw [Nat.mod_add_mod, Nat.add_assoc]
      exact writeRing_read_append hInv hLen (by simpa [Nat.add_comm] using hk) (by omega)
    · rw [writeRing_read_append hInv hLen (by simpa using hk) (by omega)]
      congr 1
      omega

/-- A pop takes the first byte of the queue (R34, R93). -/
theorem State.queue_eq_cons_takeOne {s : State} (hInv : s.Inv) (h : s.fifoCnt ≠ 0) :
    s.queue = s.fifoMem.read s.fifoR :: s.takeOne.queue := by
  obtain ⟨c, hc⟩ := Nat.exists_eq_succ_of_ne_zero h
  have hFirst : (s.fifoR + 0) % s.par.fifoCap = s.fifoR := Nat.mod_eq_of_lt hInv.r_lt
  have hNext : ∀ k, (s.fifoR + (k + 1)) % s.par.fifoCap = ((s.fifoR + 1) % s.par.fifoCap + k) % s.par.fifoCap := by
    intro k
    rw [Nat.mod_add_mod, Nat.add_assoc, Nat.add_comm 1 k]
  have hRest : s.takeOne.queue = (List.range c).map fun k =>
      s.fifoMem.read (((s.fifoR + 1) % s.par.fifoCap + k) % s.par.fifoCap) := by
    rw [State.queue, show s.takeOne.fifoCnt = c by simp [State.takeOne, hc]]
    rfl
  rw [hRest, State.queue, hc, List.range_succ_eq_map, List.map_cons, hFirst, List.map_map]
  congr 1
  refine List.map_congr_left fun k _ => ?_
  exact congrArg s.fifoMem.read (hNext k)

end Sys2Proof.Machine
end

section
/-! PROOF. A step happens exactly under the host's duties (10_state.md R46; 60_exceptions.md R123). -/
namespace Sys2Proof.Machine

/-- A step that delivers an event answers a next state only under the host's duties. -/
theorem duties_of_step {s t : State} {d : Delivery} {rest : List Delivery} (hInbox : s.inbox = d :: rest)
    (hStep : step s = .next t) : s.DutiesMet d := by
  rcases step_cases hStep with ⟨hNil, _⟩ | ⟨d', rest', hCons, hDuty, _⟩
  · rw [hInbox] at hNil
    cases hNil
  · rw [hInbox] at hCons
    cases hCons
    exact duties_of_unbroken hDuty

/-- Under the host's duties the step is the event's whole effect. -/
theorem step_of_duties {s : State} {d : Delivery} {rest : List Delivery} (hInbox : s.inbox = d :: rest)
    (hDuties : s.DutiesMet d) : ∃ t, step s = .next t := by
  obtain ⟨t, ht⟩ := handle_next d.event (s.arrive d.now rest)
  exact ⟨t, (offers_step ⟨hInbox, hDuties⟩).trans ht⟩

/-- Settles O9: an admitted event always has its effect, a refused one breaks a duty, and the type of faults is empty. -/
theorem stepsExactlyWhenDutiesMet : Obligations.StepsExactlyWhenDutiesMet := by
  refine ⟨fun s d rest hInbox => ⟨fun ⟨t, hStep⟩ => ?_, fun hDuties => ?_⟩, fun s f => ?_, fun s hNil => ?_⟩
  · exact duties_of_step hInbox hStep
  · exact step_of_duties hInbox hDuties
  · cases f
  · exact step_nil hNil

end Sys2Proof.Machine
end

section
/-! PROOF. The invariant of a reachable state (10_state.md R28, R31 to R34, R41, R42): reset has it, and every operation that
a step is made of keeps it. -/
namespace Sys2Proof.Machine

/-- The invariant says nothing of BANK, the transaction scratch, what the host will deliver and the outputs. -/
theorem State.Inv.frame {s : State} (h : s.Inv) (bank : Byte) (sel : Bool) (byteIdx : Nat) (isWrite : Bool)
    (regAddr : RegAddr) (stage : Vector Byte 3) (inbox : List Delivery) (asked : Nat) (miso : List Byte) (diag : List Diag)
    (draws : Nat) :
    State.Inv { s with bank := bank, sel := sel, byteIdx := byteIdx, isWrite := isWrite, regAddr := regAddr,
                       stage := stage, inbox := inbox, asked := asked, miso := miso, diag := diag, draws := draws } :=
  ⟨h.par_ok, h.mem_wf, h.mem_in, h.w_lt, h.r_lt, h.cnt_le, h.index_eq, h.period_pos, h.tick_ahead, h.ampA_in, h.ampG_in,
    h.bank_cell, h.data_cell⟩

/-- New register contents keep the invariant when they leave the two cells that nothing writes (R23, R28). -/
theorem State.Inv.regs {s : State} (h : s.Inv) {reg : Vector Byte 128}
    (hBank : State.regAt { s with reg := reg } 0x76#7 = s.regAt 0x76#7)
    (hData : State.regAt { s with reg := reg } 0x30#7 = s.regAt 0x30#7) : State.Inv { s with reg := reg } :=
  ⟨h.par_ok, h.mem_wf, h.mem_in, h.w_lt, h.r_lt, h.cnt_le, h.index_eq, h.period_pos, h.tick_ahead, h.ampA_in, h.ampG_in,
    hBank.trans h.bank_cell, hData.trans h.data_cell⟩

theorem State.Inv.writeReg {s : State} (h : s.Inv) {a : RegAddr} (h76 : a ≠ 0x76#7) (h30 : a ≠ 0x30#7) (v : Byte) :
    (s.writeReg a v).Inv :=
  h.regs ((s.writeReg_regAt a 0x76#7 v).trans (if_neg h76.symm)) ((s.writeReg_regAt a 0x30#7 v).trans (if_neg h30.symm))

/-- A timer whose period is positive and whose next tick is not past keeps the invariant (R41, R46 (e)). -/
theorem State.Inv.setTimer {s : State} (h : s.Inv) {p t : Nat} (hPos : 0 < p) (hAhead : s.now ≤ t) :
    (s.setTimer (some p) t).Inv :=
  ⟨h.par_ok, h.mem_wf, h.mem_in, h.w_lt, h.r_lt, h.cnt_le, h.index_eq, fun _ hp => Option.some.inj hp ▸ hPos,
    fun _ _ => hAhead, h.ampA_in, h.ampG_in, h.bank_cell, h.data_cell⟩

/-- A FIFO whose memory is canonical and in the ring and whose indices agree keeps the invariant (R31 to R34). -/
theorem State.Inv.setFifo {s : State} (h : s.Inv) {m : Memory} {w r c : Nat} (hWf : m.wf = true)
    (hIn : ∀ x ∈ m, x.1 < s.par.fifoCap) (hr : r < s.par.fifoCap) (hc : c ≤ s.par.fifoCap)
    (hIndex : (r + c) % s.par.fifoCap = w) : (s.setFifo m w r c).Inv :=
  ⟨h.par_ok, hWf, hIn, hIndex ▸ Nat.mod_lt _ (by omega), hr, hc, hIndex, h.period_pos, h.tick_ahead, h.ampA_in, h.ampG_in,
    h.bank_cell, h.data_cell⟩

/-- An event arrives under the host's duties: NOW does not pass a tick that is due (R46 (e)). -/
theorem State.Inv.arrive {s : State} (h : s.Inv) {d : Delivery} (hDuties : s.DutiesMet d) (rest : List Delivery) :
    (s.arrive d.now rest).Inv :=
  ⟨h.par_ok, h.mem_wf, h.mem_in, h.w_lt, h.r_lt, h.cnt_le, h.index_eq, h.period_pos, hDuties.2.1, h.ampA_in, h.ampG_in,
    h.bank_cell, h.data_cell⟩

/-- An amplitude in range keeps the invariant (R42, R46 (f)). -/
theorem State.Inv.writeAmp {s : State} (h : s.Inv) (which : AmpSel) {q : Rat} (hq : 0 ≤ q ∧ q ≤ 1) :
    (s.writeAmp which q).Inv := by
  cases which with
  | accel =>
    exact ⟨h.par_ok, h.mem_wf, h.mem_in, h.w_lt, h.r_lt, h.cnt_le, h.index_eq, h.period_pos, h.tick_ahead, hq, h.ampG_in,
      h.bank_cell, h.data_cell⟩
  | gyro =>
    exact ⟨h.par_ok, h.mem_wf, h.mem_in, h.w_lt, h.r_lt, h.cnt_le, h.index_eq, h.period_pos, h.tick_ahead, h.ampA_in, hq,
      h.bank_cell, h.data_cell⟩

theorem State.Inv.updateCount {s : State} (h : s.Inv) : s.updateCount.Inv := by
  have hOther : s.RegsSameBut s.updateCount [0x2D#7, 0x2E#7, 0x2F#7] := s.updateCount_regsSameBut
  rw [State.updateCount_eq] at hOther ⊢
  exact h.regs (hOther 0x76#7 (by decide)) (hOther 0x30#7 (by decide))

/-- A pop moves FIFO_R on by the one byte that FIFO_CNT loses (R93). -/
theorem State.Inv.takeOne {s : State} (h : s.Inv) (hCnt : s.fifoCnt ≠ 0) : s.takeOne.Inv := by
  have hCap := h.r_lt
  refine h.setFifo h.mem_wf h.mem_in (Nat.mod_lt _ (by omega)) (by have := h.cnt_le; omega) ?_
  rw [← h.index_eq, Nat.mod_add_mod]
  congr 1
  omega

/-- A push moves FIFO_W on, and with it FIFO_CNT, or FIFO_R when the bytes do not fit (R90, R91). -/
theorem State.Inv.push {s : State} (h : s.Inv) (buf : List Byte) : (s.push buf).Inv := by
  have hCap : 0 < s.par.fifoCap := by have := h.r_lt; omega
  have hWf := writeRing_wf (cap := s.par.fifoCap) (w := s.fifoW) (buf := buf) h.mem_wf
  have hIn := writeRing_mem (w := s.fifoW) (buf := buf) hCap h.mem_in
  refine State.Inv.updateCount ?_
  unfold State.countIn
  split_ifs with hFull
  · have hOverflow : State.Inv (s.setFifo (writeRing s.par.fifoCap s.fifoW buf s.fifoMem)
        ((s.fifoW + buf.length) % s.par.fifoCap) ((s.fifoR + buf.length) % s.par.fifoCap) s.fifoCnt) := by
      refine h.setFifo hWf hIn (Nat.mod_lt _ hCap) h.cnt_le ?_
      rw [← h.index_eq, Nat.mod_add_mod, Nat.mod_add_mod, Nat.add_right_comm]
    exact hOverflow.writeReg (by decide) (by decide) _
  · refine h.setFifo hWf hIn h.r_lt (Nat.not_lt.1 hFull) ?_
    show (s.fifoR + (s.fifoCnt + buf.length)) % s.par.fifoCap = (s.fifoW + buf.length) % s.par.fifoCap
    rw [← h.index_eq, Nat.mod_add_mod, Nat.add_assoc]

/-- The re-arm puts the next tick later still (R97). -/
theorem State.Inv.rearm {s : State} (h : s.Inv) : s.rearm.Inv := by
  unfold State.rearm
  split
  · exact h
  next p hp => exact h.setTimer (h.period_pos p hp) (le_trans (h.tick_ahead p hp) (Nat.le_add_right _ _))

theorem State.Inv.tick {s : State} (h : s.Inv) (d : AxisDraws) : (s.tick d).Inv := by
  unfold State.tick
  split_ifs
  · exact h.rearm.push _
  · exact h.rearm

/-- A rate of the table is positive and at most 10^12 millihertz (R103 (d), log entry 5). -/
theorem rate_bounds {p : Params} (h : p.ok = true) {c : BitVec 4} {r : Nat} (hr : Params.rate p c = some r) :
    0 < r ∧ r ≤ 10 ^ 12 := by
  simp only [Params.ok, Bool.and_eq_true, List.all_eq_true] at h
  obtain ⟨_, hAll⟩ := h
  have hMem : some r ∈ p.odrTable.toList := by
    rw [← hr, Vector.mem_toList_iff]
    exact Vector.getElem_mem _
  simpa [Config.rateOk] using hAll _ hMem

/-- A rate of the table gives a positive period (R41, R105). -/
theorem State.Inv.writeOdr {s : State} (h : s.Inv) (v : Byte) : (s.writeOdr v).Inv := by
  have hStored : (s.writeReg 0x50#7 v).Inv := h.writeReg (by decide) (by decide) v
  cases hRate : Params.rate s.par (odrCode v) with
  | none =>
    rw [State.writeOdr_none hRate]
    exact hStored
  | some r =>
    obtain ⟨hPos, hLe⟩ := rate_bounds h.par_ok hRate
    rw [State.writeOdr_some hRate]
    exact hStored.setTimer (Nat.div_pos hLe hPos) (Nat.le_add_right _ _)

theorem State.Inv.readAccess {s : State} (h : s.Inv) (a : RegAddr) :
    (execState (decodeRead (accessWord true a)) s).Inv := by
  rcases readAccess_cases a s with ⟨_, e⟩ | ⟨_, _, e⟩ | ⟨_, _, _, e⟩ | ⟨_, _, hCnt, e⟩ | ⟨_, _, _, e⟩ <;> rw [e]
  · exact h.frame ..
  · exact (h.writeReg (by decide) (by decide) _).frame ..
  · exact h.frame ..
  · exact (h.takeOne hCnt).updateCount.frame ..
  · exact h.frame ..

theorem State.Inv.writeAccess {s : State} (h : s.Inv) (a : RegAddr) (v : Byte) :
    (execState (decodeWrite (accessWord false a) v) s).Inv := by
  rcases writeAccess_cases a v s with ⟨_, e⟩ | ⟨_, _, e⟩ | ⟨_, h76, _, h30, e⟩ | ⟨_, _, e⟩ <;> rw [e]
  · exact h.frame ..
  · exact h.writeOdr v
  · exact h.writeReg h76 h30 v
  · exact h

/-- Settles O46: an event arrives under the duties, and each of the ways to handle it is made of operations that keep the
invariant. -/
theorem stepKeepsInvariant : Obligations.StepKeepsInvariant := by
  intro s t hInv hStep
  have hArrive : ∀ {now e rest}, s.inbox = { now := now, event := e } :: rest → (s.arrive now rest).Inv :=
    fun hInbox => hInv.arrive (duties_of_step hInbox hStep) _
  cases step_kind hStep with
  | wait _ => exact hInv.frame ..
  | fall now rest hInbox _ => exact (hArrive hInbox).frame ..
  | rise now rest hInbox _ => exact (hArrive hInbox).frame ..
  | commitOne now rest hInbox _ _ _ =>
    have hDeselect : (s.arrive now rest).deselect.Inv := (hArrive hInbox).frame ..
    exact hDeselect.writeAccess _ _
  | commitTwo now rest hInbox _ _ _ =>
    have hDeselect : (s.arrive now rest).deselect.Inv := (hArrive hInbox).frame ..
    exact (hDeselect.writeAccess _ _).writeAccess _ _
  | command now rest b hInbox _ =>
    rw [execState_decodeCommand]
    exact (hArrive hInbox).frame ..
  | read now rest b hInbox _ _ => exact ((hArrive hInbox).readAccess s.regAddr).frame ..
  | staged now rest b hInbox _ _ _ => exact (hArrive hInbox).frame ..
  | excess now rest b hInbox _ _ => exact (hArrive hInbox).frame ..
  | anomaly now rest w hInbox =>
    obtain ⟨out, n, e⟩ := State.anomaly_eq (s.arrive now rest) w
    rw [e]
    exact (hArrive hInbox).frame ..
  | tick now rest d p hInbox _ _ => exact (hArrive hInbox).tick d
  | amp now rest w q hInbox => exact (hArrive hInbox).writeAmp w (duties_of_step hInbox hStep).2.2

/-- The chip's parameters meet the spec's constraints, by construction (R5). -/
theorem params_ok : Config.params.ok = true := by
  unfold Config.params
  split_ifs with h
  · exact h
  · decide

@[simp] theorem reset_regAt (a : RegAddr) : State.reset.regAt a = 0x00#8 :=
  Vector.getElem_replicate _

/-- A period that the timer has at creation is positive (R41). -/
theorem initPeriod_pos {p : Nat} (h : Config.initPeriod = some p) : 0 < p := by
  simpa using (Option.filter_eq_some_iff.1 h).2

/-- An amplitude at creation is in range (R42). -/
theorem ampInit_in (q : Rat) :
    0 ≤ (if Config.ampInRange q then q else 0) ∧ (if Config.ampInRange q then q else 0) ≤ 1 := by
  split_ifs with h
  · exact of_decide_eq_true h
  · exact ⟨le_refl 0, zero_le_one⟩

/-- Settles O47: the FIFO is empty and the clock at 0, and each opaque constant is cut down to the spec's range. -/
theorem resetMeetsInvariant : Obligations.ResetMeetsInvariant where
  par_ok := params_ok
  mem_wf := rfl
  mem_in := by simp [State.reset]
  w_lt := lt_of_lt_of_le (by decide) (fifoCap_bounds params_ok).1
  r_lt := lt_of_lt_of_le (by decide) (fifoCap_bounds params_ok).1
  cnt_le := Nat.zero_le _
  index_eq := Nat.zero_mod _
  period_pos := fun _ hp => initPeriod_pos hp
  tick_ahead := fun _ _ => Nat.zero_le _
  ampA_in := ampInit_in _
  ampG_in := ampInit_in _
  bank_cell := reset_regAt _
  data_cell := reset_regAt _

/-- Settles O48: the values stand in the reset state, whose empty inbox lets the step only ask the host. -/
theorem resetValues : Obligations.ResetValues :=
  ⟨reset_regAt, rfl, rfl, rfl, rfl, rfl, rfl, rfl, rfl, rfl, step_nil rfl⟩

end Sys2Proof.Machine
end

section
/-! PROOF. The steps of a transaction (43_spi_transaction.md R111 to R120): chip-select edges, beats and anomalies. -/
namespace Sys2Proof.Machine

/-- A step that delivers an event and answers t handled that event to t. -/
theorem handle_of_step {s t : State} {d : Delivery} {rest : List Delivery} (hInbox : s.inbox = d :: rest)
    (hStep : step s = .next t) : handle d.event (s.arrive d.now rest) = .next t :=
  (offers_step ⟨hInbox, duties_of_step hInbox hStep⟩).symm.trans hStep

theorem step_csFall {s : State} {now : Nat} {rest : List Delivery} (h : s.Offers now .csFall rest) :
    step s = .next (s.arrive now rest).select :=
  offers_step h

/-- Settles O37: the step is the select, at the state the event finds. -/
theorem csFallStartsTransaction : Obligations.CsFallStartsTransaction := fun _ _ _ hOffers => step_csFall hOffers

/-- Settles O6: BYTE_IDX = 0 selects the command beat, and the decoded instruction is the decoder's own. -/
theorem commandBeatRunsDecodedCommand : Obligations.CommandBeatRunsDecodedCommand := by
  intro s now b rest i hOffers h0 hDecode
  cases hDecode
  calc step s = beat b (s.arrive now rest) := offers_step hOffers
    _ = exec (decodeCommand b) (s.arrive now rest) := if_pos h0

/-- The step of a read data beat is the access that REG_ADDR names, and then the address moves on (R113). -/
theorem step_readBeat {s : State} {now : Nat} {b : Byte} {rest : List Delivery} (h : s.Offers now (.beat b) rest)
    (h0 : s.byteIdx ≠ 0) (hRead : s.isWrite = false) :
    step s = .next (execState (decodeRead (accessWord true s.regAddr)) (s.arrive now rest)).advanceRead :=
  calc step s = beat b (s.arrive now rest) := offers_step h
    _ = if s.isWrite = false then readBeat (s.arrive now rest)
        else if s.byteIdx ≤ 2 then .next ((s.arrive now rest).stageBeat b)
        else .next (s.arrive now rest).excessBeat := if_neg h0
    _ = readBeat (s.arrive now rest) := if_pos hRead
    _ = .next (execState (decodeRead (accessWord true s.regAddr)) (s.arrive now rest)).advanceRead := readBeat_eq _

/-- No access changes what NextAddr and the beat count read, so they move on as from the state before it (R113, R115). -/
theorem readAccess_advanceRead (a : RegAddr) (s : State) :
    (execState (decodeRead (accessWord true a)) s).advanceRead =
      { execState (decodeRead (accessWord true a)) s with
        regAddr := s.nextAddr s.regAddr
        byteIdx := s.byteIdx + 1 } := by
  obtain ⟨_, _, _, _, hAccess⟩ := readAccess_eq a s
  rw [hAccess]
  rfl

/-- Settles O7: the decoder answers the instruction that the beat runs. -/
theorem readBeatRunsDecodedAccess : Obligations.ReadBeatRunsDecodedAccess := by
  intro s now b rest i hOffers h0 hRead hDecode
  rw [decode_access_read (isReadByte_accessWord true s.regAddr)] at hDecode
  cases hDecode
  refine ⟨_, exec_eq_execState _ (s.arrive now rest), ?_⟩
  rw [step_readBeat hOffers h0 hRead, readAccess_advanceRead]
  rfl

/-- Settles O14: the access is the read-to-clear, and moving the address on changes neither registers nor the FIFO. -/
theorem readBeatClearsIntStatusAtThatBeat : Obligations.ReadBeatClearsIntStatusAtThatBeat := by
  intro s now b rest hOffers h0 hRead hBank hAddr
  have hClear : execState (decodeRead (accessWord true s.regAddr)) (s.arrive now rest) =
      ((s.arrive now rest).writeReg 0x2D#7 0x00#8).respond (s.regAt 0x2D#7) := by
    rw [hAddr]
    exact Host.Outcome.next.inj (exec_rdIntStatus_bank0 (s := s.arrive now rest) hBank)
  refine ⟨_, step_readBeat hOffers h0 hRead, ?_⟩
  rw [hClear]
  exact ⟨rfl, by simp, s.writeReg_regsSameBut 0x2D#7 0x00#8, ⟨rfl, rfl, rfl, fun _ => rfl⟩, rfl⟩

/-- One more address, modulo 128 (R115). -/
theorem regAddr_succ_toNat (a : RegAddr) : (a + 1).toNat = (a.toNat + 1) % 128 := by
  simp [BitVec.toNat_add]

theorem addrField_toNat (b : Byte) : (addrField b).toNat = b.toNat % 128 := by
  simp [addrField_eq_setWidth]

/-- Settles O42: the access leaves REG_ADDR to NextAddr, whose pin test is the one of the rule in force. -/
theorem readBurstAddress : Obligations.ReadBurstAddress := by
  intro s now b rest hOffers h0 hRead
  obtain ⟨_, _, _, _, hAccess⟩ := readAccess_eq s.regAddr (s.arrive now rest)
  have hNext : (s.nextAddr s.regAddr).toNat =
      if s.pinned s.regAddr then s.regAddr.toNat else (s.regAddr.toNat + 1) % 128 := by
    rw [State.nextAddr, apply_ite BitVec.toNat, regAddr_succ_toNat]
  refine ⟨_, step_readBeat hOffers h0 hRead, ?_⟩
  rw [readAccess_advanceRead, hAccess]
  refine ⟨rfl, hRead, rfl, fun hRule => hNext.trans ?current, fun hRule => hNext.trans ?start⟩
  case current =>
    simp only [State.pinned, hRule, beq_iff_eq]
    split_ifs with hPin
    · rw [hPin]; rfl
    · rfl
  case start =>
    have hStart : s.startAddr = 0x30#7 ↔ (s.staged 0).toNat % 128 = 0x30 := by
      rw [← addrField_toNat, ← BitVec.toNat_inj]
      rfl
    simp only [State.pinned, hRule, beq_iff_eq, hStart]

/-- Settles O39: BYTE_IDX above 2 selects the excess beat, at the state the event finds. -/
theorem excessWriteBeat : Obligations.ExcessWriteBeat := by
  intro s now b rest hOffers hWrite h2
  have h0 : s.byteIdx ≠ 0 := by omega
  have hNotRead : ¬s.isWrite = false := by simp [hWrite]
  calc step s = beat b (s.arrive now rest) := offers_step hOffers
    _ = if s.isWrite = false then readBeat (s.arrive now rest)
        else if s.byteIdx ≤ 2 then .next ((s.arrive now rest).stageBeat b)
        else .next (s.arrive now rest).excessBeat := if_neg h0
    _ = .next (s.arrive now rest).excessBeat := by rw [if_neg hNotRead, if_neg (by omega)]

/-- Settles O41: the step reports and then answers w free bytes, and both change the outputs alone. -/
theorem anomalyChangesNoState : Obligations.AnomalyChangesNoState := by
  intro s now w rest hOffers
  obtain ⟨out, hLength, hOut⟩ := State.respondFreeMany_spec w ((s.arrive now rest).report .badExchangeWidth)
  refine ⟨out, hLength, (offers_step hOffers).trans ?_⟩
  exact congrArg Host.Outcome.next hOut

/-- Settles O43: the address field is the byte modulo 128, and the addition wraps. -/
theorem commitAddressWraps : Obligations.CommitAddressWraps := by
  intro s i
  rw [State.commitAddr, State.startAddr, BitVec.toNat_add, addrField_toNat, BitVec.toNat_ofNat]
  omega

/-- A CS_RISE that ends a write transaction runs the write accesses of the staged bytes (R118). -/
theorem step_commit {s : State} {now : Nat} {rest : List Delivery} (h : s.Offers now .csRise rest)
    (hWrite : s.isWrite = true) (h0 : s.byteIdx ≠ 0) :
    step s = .next (execStates (s.arrive now rest).commitAccesses (s.arrive now rest).deselect) :=
  calc step s = csRise (s.arrive now rest) := offers_step h
    _ = execAll (s.arrive now rest).commitAccesses (s.arrive now rest).deselect := if_pos ⟨h0, hWrite⟩
    _ = .next (execStates (s.arrive now rest).commitAccesses (s.arrive now rest).deselect) := execAll_eq _ _

/-- The write access of a staged byte is what its word and byte decode to (R72, R118). -/
theorem commitAccess_of_decode {s : State} {j : Nat} {i : Instr}
    (h : decode .access [accessWord false (s.commitAddr j), s.staged (1 + j)] = .instr i []) : s.commitAccess j = i := by
  rw [decode_access_write (isReadByte_accessWord false _)] at h
  cases h
  rfl

/-- BYTE_IDX = 1: the command byte alone, and nothing to commit (R118). -/
theorem commitAccesses_none {s : State} (h : s.byteIdx = 1) : s.commitAccesses = [] := by
  simp [State.commitAccesses, State.commitCount, h]

/-- BYTE_IDX = 2: one staged byte (R118). -/
theorem commitAccesses_one {s : State} (h : s.byteIdx = 2) : s.commitAccesses = [s.commitAccess 0] := by
  simp [State.commitAccesses, State.commitCount, h]

/-- BYTE_IDX of 3 and more: the two staged bytes, in address order (R118). -/
theorem commitAccesses_two {s : State} (h : 3 ≤ s.byteIdx) : s.commitAccesses = [s.commitAccess 0, s.commitAccess 1] := by
  have hCount : s.commitCount = 2 := Nat.min_eq_right (show 2 ≤ s.byteIdx - 1 by omega)
  rw [State.commitAccesses, hCount]
  rfl

/-- Settles O8: the commit runs no access, the first, or the first and the second, as BYTE_IDX says. -/
theorem commitRunsDecodedAccesses : Obligations.CommitRunsDecodedAccesses := by
  intro s now rest i0 i1 hOffers hWrite hDecode0 hDecode1
  have hAccess0 : (s.arrive now rest).commitAccess 0 = i0 :=
    commitAccess_of_decode (by rw [State.commitAddr_zero]; exact hDecode0)
  have hAccess1 : (s.arrive now rest).commitAccess 1 = i1 :=
    commitAccess_of_decode (by rw [State.commitAddr_one, State.commitAddr_zero]; exact hDecode1)
  refine ⟨fun h => ?none, fun h => ?one, fun h => ?two⟩
  case none =>
    rw [step_commit hOffers hWrite (by omega), commitAccesses_none (s := s.arrive now rest) h]
    rfl
  case one =>
    rw [step_commit hOffers hWrite (by omega), commitAccesses_one (s := s.arrive now rest) h, hAccess0, exec_eq_execState]
    rfl
  case two =>
    refine ⟨_, exec_eq_execState i0 _, ?_⟩
    rw [step_commit hOffers hWrite (by omega), commitAccesses_two (s := s.arrive now rest) h, hAccess0, hAccess1,
      exec_eq_execState]
    rfl

end Sys2Proof.Machine
end

section
/-! PROOF. A commit under a BANK that its first byte changes (43_spi_transaction.md R118 (b)), and two transactions one
after the other. -/
namespace Sys2Proof.Machine

/-- Settles O26: the first access sets BANK and no cell, and the second is checked against that BANK. -/
theorem bankChangeAppliesToNextByte : Obligations.BankChangeAppliesToNextByte := by
  intro s now rest hOffers hWrite h3 hStart
  have hAddr0 : (s.arrive now rest).commitAddr 0 = 0x76#7 := (State.commitAddr_zero _).trans hStart
  have hAddr1 : (s.arrive now rest).commitAddr 1 = 0x77#7 := by
    rw [State.commitAddr_one, hAddr0]
    rfl
  have hFirst : execState ((s.arrive now rest).commitAccess 0) (s.arrive now rest).deselect =
      (s.arrive now rest).deselect.setBank (s.staged 1) := by
    rw [State.commitAccess, hAddr0]
    rfl
  have hStep : step s = .next (execState (decodeWrite (accessWord false 0x77#7) (s.staged 2))
      ((s.arrive now rest).deselect.setBank (s.staged 1))) := by
    rw [step_commit hOffers hWrite (by omega), commitAccesses_two (s := s.arrive now rest) h3, ← hFirst, ← hAddr1]
    rfl
  refine ⟨_, hStep, ?bank, ?cell, ?others⟩
  case bank => rw [writeAccess_bank, if_neg (by decide)]; rfl
  case cell =>
    rw [writeAccess_regAt]
    simp
  case others =>
    intro a ha
    rw [writeAccess_regAt, if_neg (by simp at ha; simp [ha])]
    rfl

/-- The state after CS_FALL and the command beat of a transaction, with rest still to be delivered (R111, R112). -/
def State.commanded (s : State) (now : Nat) (isRead : Bool) (a : RegAddr) (rest : List Delivery) : State :=
  (s.arrive now rest).select.commandBeat isRead a

/-- CS_FALL and the command beat change the transaction scratch and the host's and output fields alone. -/
theorem State.commanded_eq (s : State) (now : Nat) (isRead : Bool) (a : RegAddr) (rest : List Delivery) :
    s.commanded now isRead a rest =
      { s with sel := true, byteIdx := 1, isWrite := !isRead, regAddr := a,
               stage := s.stage.set 0 (accessWord isRead a), now := now, inbox := rest,
               miso := Config.freeByte s.draws :: s.miso, draws := s.draws + 1 } := rfl

/-- A run of two steps over CS_FALL and a command beat leaves the state after both. -/
theorem run_fall_command {s t : State} {now now' : Nat} {b : Byte} {rest : List Delivery}
    (hInbox : s.inbox = { now := now, event := .csFall } :: { now := now', event := .beat b } :: rest)
    (hRun : Host.Core.run core 2 s = .next t) : t = s.commanded now' (isReadByte b) (addrField b) rest := by
  obtain ⟨u, hFall, hRest⟩ := (run_succ 1 s t).1 hRun
  obtain ⟨u', hBeat, hEnd⟩ := (run_succ 0 u t).1 hRest
  cases hEnd
  cases handle_of_step hInbox hFall
  have hInbox' : (s.arrive now ({ now := now', event := .beat b } :: rest)).select.inbox =
      { now := now', event := .beat b } :: rest := rfl
  exact Host.Outcome.next.inj (hBeat.symm.trans (step_commandBeat ⟨hInbox', duties_of_step hInbox' hBeat⟩ rfl))

/-- Settles O44: both runs end in the command beat at states that differ in STAGE alone, and it writes STAGE[0]. -/
theorem freshTransactionForgetsScratch : Obligations.FreshTransactionForgetsScratch := by
  intro s t u k w a stg now now' b rest hInbox hRun hRun'
  obtain rfl := run_fall_command hInbox hRun
  obtain rfl := run_fall_command (s := { s with byteIdx := k, isWrite := w, regAddr := a, stage := stg }) hInbox hRun'
  exact ⟨rfl, (State.commandBeat_staged_zero _ _ _).trans (State.commandBeat_staged_zero _ _ _).symm⟩

/-- Two runs one after the other. -/
theorem run_trans {m n : Nat} {s t u : State} (hFirst : Host.Core.run core m s = .next t)
    (hSecond : Host.Core.run core n t = .next u) : Host.Core.run core (m + n) s = .next u := by
  induction m generalizing s with
  | zero =>
    cases hFirst
    rwa [Nat.zero_add]
  | succ m ih =>
    obtain ⟨v, hStep, hRest⟩ := (run_succ m s t).1 hFirst
    rw [Nat.add_right_comm]
    exact (run_succ (m + n) s u).2 ⟨v, hStep, ih hRest⟩

/-- The host delivers a whole transaction of one data byte, at four times that do not decrease and that no tick
precedes. -/
structure State.OffersTransaction (s : State) (t0 t1 t2 t3 : Nat) (isRead : Bool) (a : RegAddr) (data : Byte)
    (rest : List Delivery) : Prop where
  deselected : s.sel = false
  le0 : s.now ≤ t0
  le1 : t0 ≤ t1
  le2 : t1 ≤ t2
  le3 : t2 ≤ t3
  tick : ∀ p, s.tmrPeriod = some p → t3 ≤ s.tmrNext
  inbox : s.inbox = { now := t0, event := .csFall } :: { now := t1, event := .beat (accessWord isRead a) } ::
    { now := t2, event := .beat data } :: { now := t3, event := .csRise } :: rest

section
variable {s : State} {t0 t1 t2 t3 : Nat} {isRead : Bool} {a : RegAddr} {data : Byte} {rest : List Delivery}

/-- CS_FALL and a command beat, offered one after the other. -/
theorem run_commanded (hFall : s.Offers t0 .csFall ({ now := t1, event := .beat (accessWord isRead a) } :: rest))
    (hLe : t0 ≤ t1) (hTick : ∀ p, s.tmrPeriod = some p → t1 ≤ s.tmrNext) :
    Host.Core.run core 2 s = .next (s.commanded t1 isRead a rest) := by
  have hBeat : (s.arrive t0 ({ now := t1, event := .beat (accessWord isRead a) } :: rest)).select.Offers t1
      (.beat (accessWord isRead a)) rest := ⟨rfl, hLe, hTick, rfl⟩
  have hCommand := step_commandBeat hBeat rfl
  rw [isReadByte_accessWord, addrField_accessWord] at hCommand
  exact (run_succ 1 s _).2 ⟨_, step_csFall hFall, (run_succ 0 _ _).2 ⟨_, hCommand, rfl⟩⟩

/-- The state after a write transaction that stored its one byte. -/
def State.written (s : State) (now : Nat) (a : RegAddr) (data : Byte) (rest : List Delivery) : State :=
  ((s.commanded now false a rest).stageBeat data).deselect.writeReg a data

/-- A write transaction of one byte changes its cell, the transaction scratch and the host's and output fields alone. -/
theorem State.written_eq (s : State) (now : Nat) (a : RegAddr) (v : Byte) (rest : List Delivery) :
    s.written now a v rest =
      { s with reg := (s.writeReg a v).reg, sel := false, byteIdx := 2, isWrite := true, regAddr := a,
               stage := (s.stage.set 0 (accessWord false a)).setIfInBounds 1 v, now := now, inbox := rest,
               miso := 0x00#8 :: Config.freeByte s.draws :: s.miso, draws := s.draws + 1 } := by
  rw [State.written, State.commanded_eq]
  rfl

/-- The state after a read transaction that answered one cell. -/
def State.readBack (s : State) (now : Nat) (a : RegAddr) (rest : List Delivery) : State :=
  ((s.commanded now true a rest).respond (s.regAt a)).advanceRead.deselect

/-- A read transaction of one plain cell changes the transaction scratch and the host's and output fields alone. -/
theorem State.readBack_eq (s : State) (now : Nat) (a : RegAddr) (rest : List Delivery) :
    s.readBack now a rest =
      { s with sel := false, byteIdx := 2, isWrite := false, regAddr := (s.commanded now true a rest).nextAddr a,
               stage := s.stage.set 0 (accessWord true a), now := now, inbox := rest,
               miso := s.regAt a :: Config.freeByte s.draws :: s.miso, draws := s.draws + 1 } := by
  rw [State.readBack, State.commanded_eq]
  rfl

/-- The first two steps of a transaction. -/
theorem State.OffersTransaction.run_command (h : s.OffersTransaction t0 t1 t2 t3 isRead a data rest) :
    Host.Core.run core 2 s = .next (s.commanded t1 isRead a
      ({ now := t2, event := .beat data } :: { now := t3, event := .csRise } :: rest)) := by
  have hLate : t1 ≤ t3 := h.le2.trans h.le3
  exact run_commanded ⟨h.inbox, h.le0, fun p hp => (h.le1.trans hLate).trans (h.tick p hp), h.deselected⟩ h.le1
    fun p hp => hLate.trans (h.tick p hp)

/-- The data beat of a transaction is offered at the state after its command beat. -/
theorem State.OffersTransaction.offers_data (h : s.OffersTransaction t0 t1 t2 t3 isRead a data rest) :
    (s.commanded t1 isRead a ({ now := t2, event := .beat data } :: { now := t3, event := .csRise } :: rest)).Offers
      t2 (.beat data) ({ now := t3, event := .csRise } :: rest) :=
  ⟨rfl, h.le2, fun p hp => h.le3.trans (h.tick p hp), rfl⟩

/-- The one write access of a write transaction of one byte to a plain address. -/
theorem commitAccess_commanded (now : Nat) (data : Byte) (h30 : a ≠ 0x30#7) (h50 : a ≠ 0x50#7) (h76 : a ≠ 0x76#7) :
    ((s.commanded now false a rest).stageBeat data).commitAccess 0 = .wrReg a data := by
  have hAddr : ((s.commanded now false a rest).stageBeat data).commitAddr 0 = a := by
    rw [State.commitAddr_zero, State.stageBeat_staged_of_ne data Nat.zero_ne_one, State.commanded,
      State.commandBeat_staged_zero, addrField_accessWord]
  have hByte : ((s.commanded now false a rest).stageBeat data).staged 1 = data :=
    State.stageBeat_staged_byteIdx (s := s.commanded now false a rest) data one_le_two
  rw [State.commitAccess, hAddr, hByte, decodeWrite_accessWord_of_ne _ h76 h50 h30]

/-- A write transaction of one byte to a plain address in bank 0 stages the byte and stores it. -/
theorem State.OffersTransaction.run_write (h30 : a ≠ 0x30#7) (h50 : a ≠ 0x50#7) (h76 : a ≠ 0x76#7)
    (hBank : s.bank = 0x00#8) (h : s.OffersTransaction t0 t1 t2 t3 false a data rest) :
    Host.Core.run core 4 s = .next (s.written t3 a data rest) := by
  have hStage := step_stageBeat h.offers_data rfl Nat.one_ne_zero one_le_two
  have hRise : ((s.commanded t2 false a ({ now := t3, event := .csRise } :: rest)).stageBeat data).Offers t3 .csRise
      rest := ⟨rfl, h.le3, h.tick, rfl⟩
  have hCommit : step ((s.commanded t2 false a ({ now := t3, event := .csRise } :: rest)).stageBeat data) =
      .next (s.written t3 a data rest) := by
    have hOne : ((s.commanded t3 false a rest).stageBeat data).commitAccesses = [.wrReg a data] := by
      rw [commitAccesses_one rfl, commitAccess_commanded t3 data h30 h50 h76]
    refine (step_commit hRise rfl (Nat.succ_ne_zero 1)).trans (congrArg Host.Outcome.next ?_)
    calc execStates ((s.commanded t3 false a rest).stageBeat data).commitAccesses
          ((s.commanded t3 false a rest).stageBeat data).deselect
        = execState (.wrReg a data) ((s.commanded t3 false a rest).stageBeat data).deselect := by rw [hOne]; rfl
      _ = s.written t3 a data rest :=
        execState_wrReg (s := ((s.commanded t3 false a rest).stageBeat data).deselect) hBank a data
  exact run_trans h.run_command ((run_succ 1 _ _).2 ⟨_, hStage, (run_succ 0 _ _).2 ⟨_, hCommit, rfl⟩⟩)

/-- A read transaction of one byte from a plain address in bank 0 answers the cell. -/
theorem State.OffersTransaction.run_read (h2D : a ≠ 0x2D#7) (h30 : a ≠ 0x30#7)
    (hBank : s.bank = 0x00#8) (h : s.OffersTransaction t0 t1 t2 t3 true a data rest) :
    Host.Core.run core 4 s = .next (s.readBack t3 a rest) := by
  have hRead : step (s.commanded t1 true a
      ({ now := t2, event := .beat data } :: { now := t3, event := .csRise } :: rest)) =
      .next ((s.commanded t2 true a ({ now := t3, event := .csRise } :: rest)).respond (s.regAt a)).advanceRead := by
    have hAccess : execState (decodeRead (accessWord true a))
        (s.commanded t2 true a ({ now := t3, event := .csRise } :: rest)) =
        (s.commanded t2 true a ({ now := t3, event := .csRise } :: rest)).respond (s.regAt a) := by
      rw [decodeRead_accessWord_of_ne h2D h30]
      exact execState_rdReg (s := s.commanded t2 true a _) hBank a
    rw [← hAccess]
    exact step_readBeat h.offers_data Nat.one_ne_zero rfl
  have hRise : ((s.commanded t2 true a ({ now := t3, event := .csRise } :: rest)).respond
      (s.regAt a)).advanceRead.Offers t3 .csRise rest := ⟨rfl, h.le3, h.tick, rfl⟩
  have hEnd := csRiseWithoutCommit _ _ _ hRise (.inr rfl)
  exact run_trans h.run_command ((run_succ 1 _ _).2 ⟨_, hRead, (run_succ 0 _ _).2 ⟨_, hEnd, rfl⟩⟩)

/-- A write transaction and then a read transaction of the same plain address give the written byte (L1.1). -/
theorem State.OffersTransaction.run_write_read {t4 t5 t6 t7 : Nat} {v x : Byte} {rest' : List Delivery} (h2D : a ≠ 0x2D#7)
    (h30 : a ≠ 0x30#7) (h50 : a ≠ 0x50#7) (h76 : a ≠ 0x76#7) (hBank : s.bank = 0x00#8)
    (hWrite : s.OffersTransaction t0 t1 t2 t3 false a v rest)
    (hRead : (s.written t3 a v rest).OffersTransaction t4 t5 t6 t7 true a x rest') :
    Host.Core.run core 8 s = .next ((s.written t3 a v rest).readBack t7 a rest') :=
  run_trans (hWrite.run_write h30 h50 h76 hBank) (hRead.run_read h2D h30 hBank)

/-- The cell that a write transaction stored. -/
theorem State.written_regAt (s : State) (now : Nat) (a : RegAddr) (v : Byte) (rest : List Delivery) :
    (s.written now a v rest).regAt a = v := by
  simp [State.written]

end

/-- Settles O45: the write transaction leaves a deselected state in bank 0 whose cell holds the byte, and from it the read
transaction answers that cell. -/
theorem writeTransactionThenReadBack : Obligations.WriteTransactionThenReadBack := by
  intro s τ a v x rest hSel hBank h2D h30 h50 h76 hNow hMono hTick hInbox
  have hLe : ∀ i j, i ≤ j → τ i ≤ τ j := fun i j => monotone_nat_of_le_succ hMono (a := i) (b := j)
  have hWrite : s.OffersTransaction (τ 0) (τ 1) (τ 2) (τ 3) false a v _ :=
    ⟨hSel, hNow, hMono 0, hMono 1, hMono 2, fun p hp => (hLe 3 7 (by decide)).trans (hTick p hp), hInbox⟩
  have hRead : (s.written (τ 3) a v ({ now := τ 4, event := .csFall } ::
      { now := τ 5, event := .beat (accessWord true a) } :: { now := τ 6, event := .beat x } ::
      { now := τ 7, event := .csRise } :: rest)).OffersTransaction (τ 4) (τ 5) (τ 6) (τ 7) true a x rest := by
    rw [State.written_eq]
    exact ⟨rfl, hMono 3, hMono 4, hMono 5, hMono 6, hTick, rfl⟩
  have hCell := s.written_regAt (τ 3) a v ({ now := τ 4, event := .csFall } ::
      { now := τ 5, event := .beat (accessWord true a) } :: { now := τ 6, event := .beat x } ::
      { now := τ 7, event := .csRise } :: rest)
  refine ⟨_, Config.freeByte s.draws, Config.freeByte (s.draws + 1),
    hWrite.run_write_read h2D h30 h50 h76 hBank hRead, ?_⟩
  rw [State.readBack_eq, hCell, State.written_eq]
  exact ⟨rfl, hCell, s.writeReg_regsSameBut a v, ⟨rfl, rfl, rfl, fun _ => rfl⟩, ⟨rfl, rfl⟩, rfl, rfl⟩

end Sys2Proof.Machine
end

section
/-! PROOF. The sample generator (42_sample_generator.md R97 to R102): the record, and the tick with SAMPLE_EN clear
and set. -/
namespace Sys2Proof.Machine

theorem lowByte_eq_setWidth (v : Half) : lowByte v = v.setWidth 8 :=
  (BitVec.setWidth_eq_extractLsb' (by decide)).symm

theorem highByte_eq_setWidth (v : Half) : highByte v = (v >>> 8).setWidth 8 := by
  apply BitVec.eq_of_toNat_eq
  have hLt := v.isLt
  rw [highByte_toNat, BitVec.toNat_setWidth, BitVec.toNat_ushiftRight, Nat.shiftRight_eq_div_pow]
  omega

/-- At an amplitude of exactly 0.0 an axis value is 0 (R100). -/
theorem axisDraw_zero {amp : Rat} (h : amp = 0) (draw : Half) : axisDraw amp draw = 0 := if_pos h

/-- At any other amplitude an axis value is the draw (R100). -/
theorem axisDraw_of_ne {amp : Rat} (h : amp ≠ 0) (draw : Half) : axisDraw amp draw = draw := if_neg h

/-- Settles O33: the values are the axis draws and the timestamp of the record's own making. -/
theorem recordLayout : Obligations.RecordLayout := by
  intro s d
  refine ⟨axisDraw s.ampA d.ax, axisDraw s.ampA d.ay, axisDraw s.ampA d.az, axisDraw s.ampG d.gx, axisDraw s.ampG d.gy,
    axisDraw s.ampG d.gz, timestamp s.now, ?bytes, ?time, fun h => ?zeroA, fun h => ?zeroG, fun h => ?drawA,
    fun h => ?drawG⟩
  case bytes =>
    simp only [State.makeRecord, lowByte_eq_setWidth, highByte_eq_setWidth]
  case time => exact BitVec.toNat_ofNat _ 16
  case zeroA => exact ⟨axisDraw_zero h _, axisDraw_zero h _, axisDraw_zero h _⟩
  case zeroG => exact ⟨axisDraw_zero h _, axisDraw_zero h _, axisDraw_zero h _⟩
  case drawA => exact ⟨axisDraw_of_ne h _, axisDraw_of_ne h _, axisDraw_of_ne h _⟩
  case drawG => exact ⟨axisDraw_of_ne h _, axisDraw_of_ne h _, axisDraw_of_ne h _⟩

/-- SAMPLE_EN is bit 1 of PWR_MGMT0, and the re-arm leaves it (R24). -/
theorem State.rearm_sampleEnabled (s : State) : s.rearm.sampleEnabled = (s.regAt 0x4E#7).getLsbD 1 :=
  congrArg (BitVec.getLsbD · 1) (s.rearm_regAt 0x4E#7)

/-- A tick with SAMPLE_EN clear re-arms the timer alone (R98). -/
theorem State.tick_disabled {s : State} (h : (s.regAt 0x4E#7).getLsbD 1 = false) (d : AxisDraws) :
    s.tick d = s.rearm := by
  have hDisabled : ¬ s.rearm.sampleEnabled = true := by rw [State.rearm_sampleEnabled, h]; decide
  exact if_neg hDisabled

/-- A tick with SAMPLE_EN set pushes the record it makes (R97). -/
theorem State.tick_enabled {s : State} (h : (s.regAt 0x4E#7).getLsbD 1 = true) (d : AxisDraws) :
    s.tick d = s.rearm.push (s.rearm.makeRecord d) := by
  exact if_pos (s.rearm_sampleEnabled.trans h)

/-- The step of a tick that the host offers. -/
theorem step_tick {s : State} {now : Nat} {d : AxisDraws} {rest : List Delivery} (h : s.Offers now (.tick d) rest) :
    step s = .next ((s.arrive now rest).tick d) :=
  offers_step h

/-- Settles O34: the tick is the re-arm alone, which moves TMR_NEXT on by the period. -/
theorem disabledTickOnlyRearms : Obligations.DisabledTickOnlyRearms := by
  intro s now p d rest hOffers hPeriod hDisabled
  rw [step_tick hOffers, State.tick_disabled (s := s.arrive now rest) hDisabled,
    State.rearm_eq (s := s.arrive now rest) hPeriod]
  rfl

/-- A record has RECORD_SIZE bytes (R75). -/
theorem State.makeRecord_length (s : State) (d : AxisDraws) : (s.makeRecord d).length = 16 := rfl

/-- A push changes no field but the FIFO's and register cells. -/
theorem State.push_frame (s : State) (buf : List Byte) :
    (s.push buf).bank = s.bank ∧ s.SameTimer (s.push buf) ∧ s.SameScratch (s.push buf) ∧ s.SameAmps (s.push buf) ∧
      s.SameOutputs (s.push buf) := by
  rw [State.push_eq]
  exact ⟨rfl, ⟨rfl, rfl⟩, ⟨rfl, rfl, rfl, rfl, rfl⟩, ⟨rfl, rfl⟩, ⟨rfl, rfl, rfl⟩⟩

/-- The fill level after a push is one that the count pair can hold (R5, R33). -/
theorem State.Inv.push_fifoCnt_le {s : State} (h : s.Inv) (buf : List Byte) : (s.push buf).fifoCnt ≤ 16 * 65535 :=
  (h.push buf).cnt_le.trans (fifoCap_bounds (h.push buf).par_ok).2

/-- The state in which a tick makes and pushes its record: NOW is the tick's moment and the timer is re-armed (R97). -/
def State.tickArmed (s : State) (now p : Nat) (rest : List Delivery) : State :=
  { s with inbox := rest, now := now, tmrNext := s.tmrNext + p }

theorem State.arrive_rearm {s : State} {p : Nat} (h : s.tmrPeriod = some p) (now : Nat) (rest : List Delivery) :
    (s.arrive now rest).rearm = s.tickArmed now p rest :=
  State.rearm_eq (s := s.arrive now rest) h

/-- That state meets the invariant when the tick comes under the host's duties. -/
theorem State.Inv.tickArmed {s : State} (h : s.Inv) {d : Delivery} (hDuties : s.DutiesMet d) {p : Nat}
    (hPeriod : s.tmrPeriod = some p) (rest : List Delivery) : (s.tickArmed d.now p rest).Inv :=
  State.arrive_rearm hPeriod d.now rest ▸ (h.arrive hDuties rest).rearm

/-- Settles O35: the tick is the push of one record at the re-armed state, and the queue, the count pair and INT_STATUS
follow the rules of Push. -/
theorem enabledTickQueuesOneRecord : Obligations.EnabledTickQueuesOneRecord := by
  intro s now p d rest hInv hOffers hPeriod hEnabled
  have hTick := State.tick_enabled (s := s.arrive now rest) hEnabled d
  have hArmed := hInv.tickArmed hOffers.2 hPeriod rest
  rw [State.arrive_rearm hPeriod] at hTick
  obtain ⟨hBank, ⟨hSamePeriod, hNext⟩, hScratch, hAmps, hOutputs⟩ :=
    (s.tickArmed now p rest).push_frame ((s.tickArmed now p rest).makeRecord d)
  have hRegs := (s.tickArmed now p rest).push_regsSameBut ((s.tickArmed now p rest).makeRecord d)
  refine ⟨_, (step_tick hOffers).trans (congrArg _ hTick), hSamePeriod.trans hPeriod, hNext, ?queue, ?pair, ?status, hRegs,
    hBank, hScratch, hAmps, hOutputs⟩
  case queue => exact pushAppendsToQueue _ _ hArmed (fifoCap_bounds hInv.par_ok).1
  case pair => exact State.push_countPair (hArmed.push_fifoCnt_le _)
  case status =>
    rw [State.push_intStatus, State.wmBit, hRegs 0x60#7 (by decide), hRegs 0x61#7 (by decide)]
    rfl

end Sys2Proof.Machine
end

section
/-! PROOF. What a step does to the FIFO, seen as a queue of bytes with a count pair beside it (10_state.md R22, R34). -/
namespace Sys2Proof.Machine

/-- Every field that the queue is made of is as before. -/
def State.KeepsFifo (s t : State) : Prop :=
  t.fifoMem = s.fifoMem ∧ t.fifoW = s.fifoW ∧ t.fifoR = s.fifoR ∧ t.fifoCnt = s.fifoCnt ∧ t.par = s.par

theorem State.KeepsFifo.queue_eq {s t : State} (h : s.KeepsFifo t) : t.queue = s.queue := by
  obtain ⟨hMem, _, hR, hCnt, hPar⟩ := h
  rw [State.queue, State.queue, hMem, hR, hCnt, hPar]

/-- The step from s to t is a read data beat that pops a queued byte (R83, R93, R113). -/
def State.Pops (s t : State) : Prop :=
  ∃ now b rest, s.inbox = { now := now, event := .beat b } :: rest ∧ s.regAddr = 0x30#7 ∧ s.bank = 0x00#8 ∧
    s.isWrite = false ∧ s.byteIdx ≠ 0 ∧ s.fifoCnt ≠ 0 ∧
    t = ((s.arrive now rest).takeOne.updateCount.respond (s.fifoMem.read s.fifoR)).advanceRead

/-- The step from s to t is a tick that pushes a record (R97). -/
def State.Pushes (s t : State) : Prop :=
  ∃ now d rest p, s.inbox = { now := now, event := .tick d } :: rest ∧ s.tmrPeriod = some p ∧
    (s.regAt 0x4E#7).getLsbD 1 = true ∧ t = (s.tickArmed now p rest).push ((s.tickArmed now p rest).makeRecord d)

/-- A read data beat pops, or leaves the FIFO. -/
theorem readBeat_fifo {s : State} {now : Nat} {b : Byte} {rest : List Delivery}
    (hInbox : s.inbox = { now := now, event := .beat b } :: rest) (h0 : s.byteIdx ≠ 0) (hRead : s.isWrite = false) :
    s.KeepsFifo (execState (decodeRead (accessWord true s.regAddr)) (s.arrive now rest)).advanceRead ∨
    s.Pops (execState (decodeRead (accessWord true s.regAddr)) (s.arrive now rest)).advanceRead := by
  rcases readAccess_cases s.regAddr (s.arrive now rest) with ⟨_, e⟩ | ⟨_, _, e⟩ | ⟨_, _, _, e⟩ | ⟨hBank, hAddr, hCnt, e⟩ |
    ⟨_, _, _, e⟩ <;> rw [e]
  · exact .inl ⟨rfl, rfl, rfl, rfl, rfl⟩
  · exact .inl ⟨rfl, rfl, rfl, rfl, rfl⟩
  · exact .inl ⟨rfl, rfl, rfl, rfl, rfl⟩
  · exact .inr ⟨now, b, rest, hInbox, hAddr, hBank, hRead, h0, hCnt, rfl⟩
  · exact .inl ⟨rfl, rfl, rfl, rfl, rfl⟩

/-- A tick pushes one record, or leaves the FIFO. -/
theorem tick_fifo {s : State} {now p : Nat} {d : AxisDraws} {rest : List Delivery}
    (hInbox : s.inbox = { now := now, event := .tick d } :: rest) (hPeriod : s.tmrPeriod = some p) :
    s.KeepsFifo ((s.arrive now rest).tick d) ∨ s.Pushes ((s.arrive now rest).tick d) := by
  cases hEnabled : (s.regAt 0x4E#7).getLsbD 1 with
  | false =>
    rw [State.tick_disabled (s := s.arrive now rest) hEnabled, State.arrive_rearm hPeriod]
    exact .inl ⟨rfl, rfl, rfl, rfl, rfl⟩
  | true =>
    rw [State.tick_enabled (s := s.arrive now rest) hEnabled, State.arrive_rearm hPeriod]
    exact .inr ⟨now, d, rest, p, hInbox, hPeriod, hEnabled, rfl⟩

/-- A write access leaves the FIFO (R84 to R88). -/
theorem writeAccess_keepsFifo (s : State) (a : RegAddr) (v : Byte) :
    s.KeepsFifo (execState (decodeWrite (accessWord false a) v) s) := by
  obtain ⟨_, _, _, _, e⟩ := writeAccess_eq a v s
  rw [e]
  exact ⟨rfl, rfl, rfl, rfl, rfl⟩

theorem State.KeepsFifo.trans {s t u : State} (hst : s.KeepsFifo t) (htu : t.KeepsFifo u) : s.KeepsFifo u := by
  obtain ⟨hMem, hW, hR, hCnt, hPar⟩ := hst
  obtain ⟨hMem', hW', hR', hCnt', hPar'⟩ := htu
  exact ⟨hMem'.trans hMem, hW'.trans hW, hR'.trans hR, hCnt'.trans hCnt, hPar'.trans hPar⟩

/-- Every step leaves the FIFO, pops, or pushes. -/
theorem StepKind.fifo_cases {s t : State} (h : StepKind s t) : s.KeepsFifo t ∨ s.Pops t ∨ s.Pushes t := by
  cases h with
  | wait _ => exact .inl ⟨rfl, rfl, rfl, rfl, rfl⟩
  | fall now rest _ _ => exact .inl ⟨rfl, rfl, rfl, rfl, rfl⟩
  | rise now rest _ _ => exact .inl ⟨rfl, rfl, rfl, rfl, rfl⟩
  | commitOne now rest _ _ _ _ => exact .inl (writeAccess_keepsFifo (s.arrive now rest).deselect _ _)
  | commitTwo now rest _ _ _ _ =>
    exact .inl ((writeAccess_keepsFifo (s.arrive now rest).deselect _ _).trans (writeAccess_keepsFifo _ _ _))
  | command now rest b _ _ =>
    rw [execState_decodeCommand]
    exact .inl ⟨rfl, rfl, rfl, rfl, rfl⟩
  | read now rest b hInbox h0 hRead => exact (readBeat_fifo hInbox h0 hRead).imp_right .inl
  | staged now rest b _ _ _ _ => exact .inl ⟨rfl, rfl, rfl, rfl, rfl⟩
  | excess now rest b _ _ _ => exact .inl ⟨rfl, rfl, rfl, rfl, rfl⟩
  | anomaly now rest w _ =>
    obtain ⟨out, n, e⟩ := State.anomaly_eq (s.arrive now rest) w
    rw [e]
    exact .inl ⟨rfl, rfl, rfl, rfl, rfl⟩
  | tick now rest d p hInbox hPeriod _ => exact (tick_fifo hInbox hPeriod).imp_right .inr
  | amp now rest w q _ => cases w <;> exact .inl ⟨rfl, rfl, rfl, rfl, rfl⟩

/-- The count refresh leaves the queue (R92). -/
theorem State.updateCount_queue (s : State) : s.updateCount.queue = s.queue := by
  rw [State.updateCount_eq]
  rfl

/-- The queue and MISO after a read beat that popped (R34, R93). -/
theorem State.Pops.queue {s t : State} (hInv : s.Inv) (h : s.Pops t) :
    ∃ v now b rest, s.inbox = { now := now, event := .beat b } :: rest ∧ s.regAddr = 0x30#7 ∧ s.bank = 0x00#8 ∧
      s.isWrite = false ∧ s.byteIdx ≠ 0 ∧ s.queue = v :: t.queue ∧ t.miso = v :: s.miso := by
  obtain ⟨now, b, rest, hInbox, hAddr, hBank, hRead, h0, hCnt, rfl⟩ := h
  refine ⟨s.fifoMem.read s.fifoR, now, b, rest, hInbox, hAddr, hBank, hRead, h0, ?queue, ?miso⟩
  case queue =>
    rw [State.queue_eq_cons_takeOne hInv hCnt]
    exact congrArg (_ :: ·) (State.updateCount_queue (s.arrive now rest).takeOne).symm
  case miso =>
    rw [State.advanceRead_miso, State.respond_miso, State.updateCount_eq]
    rfl

/-- Settles O31: the queue stays with the FIFO, a pop takes its first byte, and a push appends to it. -/
theorem stepRefinesByteQueue : Obligations.StepRefinesByteQueue := by
  intro s t hInv hStep
  rcases (step_kind hStep).fifo_cases with hKeeps | hPops | ⟨now, d, rest, p, hInbox, hPeriod, hEnabled, rfl⟩
  · exact .inl hKeeps.queue_eq
  · exact .inr (.inl (hPops.queue hInv))
  · have hArmed := hInv.tickArmed (duties_of_step hInbox hStep) hPeriod rest
    exact .inr (.inr ⟨_, now, d, rest, hInbox, State.makeRecord_length _ d, hEnabled,
      pushAppendsToQueue _ _ hArmed (fifoCap_bounds hInv.par_ok).1⟩)

/-- The count pair after a read beat that popped (R92, R93). -/
theorem State.Pops.countPair_eq {s t : State} (hInv : s.Inv) (h : s.Pops t) : t.countPair = t.fifoCnt / 16 := by
  obtain ⟨now, b, rest, _, _, _, _, _, _, rfl⟩ := h
  have hCap := (fifoCap_bounds hInv.par_ok).2
  have hCnt : (s.arrive now rest).takeOne.fifoCnt ≤ 16 * 65535 := (Nat.sub_le s.fifoCnt 1).trans (hInv.cnt_le.trans hCap)
  rw [State.advanceRead_fifoCnt, State.respond_fifoCnt, State.updateCount_fifoCnt]
  exact State.updateCount_countPair hCnt

/-- Settles O32: the FIFO changes only by a pop or a push, and both end in the count refresh; the bound is that of the
invariant after the step. -/
theorem countPairFollowsFifo : Obligations.CountPairFollowsFifo := by
  intro s t hInv hStep hChanged
  have hPair : t.countPair = t.fifoCnt / 16 := by
    rcases (step_kind hStep).fifo_cases with ⟨_, _, hR, hCnt, _⟩ | hPops | ⟨now, d, rest, p, hInbox, hPeriod, _, rfl⟩
    · rcases hChanged with h | h
      · exact absurd hCnt h
      · exact absurd hR h
    · exact hPops.countPair_eq hInv
    · exact State.push_countPair ((hInv.tickArmed (duties_of_step hInbox hStep) hPeriod rest).push_fifoCnt_le _)
  refine ⟨hPair, ?_⟩
  rw [hPair]
  exact Nat.div_le_div_right (stepKeepsInvariant s t hInv hStep).cnt_le

end Sys2Proof.Machine
end

section
/-! PROOF. What alone can change a part of the state (10_state.md R28 to R30, R41, R42; 43_spi_transaction.md R121,
R142). -/
namespace Sys2Proof.Machine

theorem State.SameAmps.trans {s t u : State} (hst : s.SameAmps t) (htu : t.SameAmps u) : s.SameAmps u :=
  ⟨htu.1.trans hst.1, htu.2.trans hst.2⟩

/-- A write access leaves SEL and the amplitudes. -/
theorem writeAccess_sel_amps (s : State) (a : RegAddr) (v : Byte) :
    (execState (decodeWrite (accessWord false a) v) s).sel = s.sel ∧
      s.SameAmps (execState (decodeWrite (accessWord false a) v) s) := by
  obtain ⟨_, _, _, _, e⟩ := writeAccess_eq a v s
  rw [e]
  exact ⟨rfl, rfl, rfl⟩

/-- The next event is an edge of chip-select, at the value of SEL that admits it (R46 (d)). -/
def State.TakesEdge (s : State) : Prop :=
  ∃ now rest, (s.inbox = { now := now, event := .csRise } :: rest ∧ s.sel = true) ∨
    (s.inbox = { now := now, event := .csFall } :: rest ∧ s.sel = false)

/-- Every step leaves SEL or takes an edge, and it leaves the amplitudes or takes a SET_AMP. -/
theorem StepKind.sel_amps {s t : State} (h : StepKind s t) : (t.sel = s.sel ∨ s.TakesEdge) ∧
    (s.SameAmps t ∨ ∃ now which q rest, s.inbox = { now := now, event := .setAmp which q } :: rest) := by
  cases h with
  | wait _ => exact ⟨.inl rfl, .inl ⟨rfl, rfl⟩⟩
  | fall now rest hInbox hWas => exact ⟨.inr ⟨now, rest, .inr ⟨hInbox, hWas⟩⟩, .inl ⟨rfl, rfl⟩⟩
  | rise now rest hInbox hWas => exact ⟨.inr ⟨now, rest, .inl ⟨hInbox, hWas⟩⟩, .inl ⟨rfl, rfl⟩⟩
  | commitOne now rest hInbox hWas _ _ =>
    exact ⟨.inr ⟨now, rest, .inl ⟨hInbox, hWas⟩⟩, .inl (writeAccess_sel_amps (s.arrive now rest).deselect _ _).2⟩
  | commitTwo now rest hInbox hWas _ _ =>
    have hFirst := (writeAccess_sel_amps (s.arrive now rest).deselect ((s.arrive now rest).commitAddr 0)
      ((s.arrive now rest).staged 1)).2
    exact ⟨.inr ⟨now, rest, .inl ⟨hInbox, hWas⟩⟩, .inl (hFirst.trans (writeAccess_sel_amps _ _ _).2)⟩
  | command now rest b _ _ =>
    rw [execState_decodeCommand]
    exact ⟨.inl rfl, .inl ⟨rfl, rfl⟩⟩
  | read now rest b _ _ _ =>
    obtain ⟨_, _, _, _, e⟩ := readAccess_eq s.regAddr (s.arrive now rest)
    rw [e]
    exact ⟨.inl rfl, .inl ⟨rfl, rfl⟩⟩
  | staged now rest b _ _ _ _ => exact ⟨.inl rfl, .inl ⟨rfl, rfl⟩⟩
  | excess now rest b _ _ _ => exact ⟨.inl rfl, .inl ⟨rfl, rfl⟩⟩
  | anomaly now rest w _ =>
    obtain ⟨_, _, e⟩ := State.anomaly_eq (s.arrive now rest) w
    rw [e]
    exact ⟨.inl rfl, .inl ⟨rfl, rfl⟩⟩
  | tick now rest d p _ _ _ =>
    obtain ⟨_, _, _, _, _, _, e⟩ := State.tick_eq (s.arrive now rest) d
    rw [e]
    exact ⟨.inl rfl, .inl ⟨rfl, rfl⟩⟩
  | amp now rest w q hInbox => exact ⟨.inl (State.writeAmp_sel _ w q), .inr ⟨now, w, q, rest, hInbox⟩⟩

/-- Settles O55: a step that changes SEL takes an edge. -/
theorem onlyChipSelectEdgesChangeSel : Obligations.OnlyChipSelectEdgesChangeSel := fun _ _ hStep hSel =>
  (step_kind hStep).sel_amps.1.resolve_left hSel

/-- Settles O53: a step that changes an amplitude takes a SET_AMP. -/
theorem amplitudesChangedOnlyBySetAmp : Obligations.AmplitudesChangedOnlyBySetAmp := fun _ _ hStep hAmps =>
  (step_kind hStep).sel_amps.2.resolve_left hAmps

/-- Settles O54: such a beat is staged or in excess, and both write the transaction scratch and the outputs alone. -/
theorem writeBeatsTouchScratchOnly : Obligations.WriteBeatsTouchScratchOnly := by
  intro s t now b rest hInbox hWrite hStep h0
  have hBeat : beat b (s.arrive now rest) = .next t := handle_of_step hInbox hStep
  rcases beat_cases b (s.arrive now rest) with ⟨h, _⟩ | ⟨_, h, _⟩ | ⟨_, _, _, h⟩ | ⟨_, _, h⟩
  · exact absurd h h0
  · exact absurd (hWrite.symm.trans h) (by decide)
  · cases h.symm.trans hBeat
    exact ⟨fun _ _ => rfl, rfl, ⟨rfl, rfl, rfl, fun _ => rfl⟩, ⟨rfl, rfl⟩, ⟨rfl, rfl⟩, rfl, rfl, rfl,
      State.stageBeat_staged_of_ne b (Ne.symm h0), rfl⟩
  · cases h.symm.trans hBeat
    exact ⟨fun _ _ => rfl, rfl, ⟨rfl, rfl, rfl, fun _ => rfl⟩, ⟨rfl, rfl⟩, ⟨rfl, rfl⟩, rfl, rfl, rfl, rfl, rfl⟩

end Sys2Proof.Machine
end

section
/-! PROOF. Register cells, BANK and the timer change only by the commit of a staged byte, or, the timer, by a tick
(10_state.md R29, R30, R41; 40_register_file.md R84 to R87). -/
namespace Sys2Proof.Machine

/-- The step from s to t is a CS_RISE that commits the first staged byte, or the first two (R118). -/
def State.Commits (s t : State) : Prop :=
  ∃ now rest, s.inbox = { now := now, event := .csRise } :: rest ∧ s.isWrite = true ∧
    ((2 ≤ s.byteIdx ∧ t = execState ((s.arrive now rest).commitAccess 0) (s.arrive now rest).deselect) ∨
     (3 ≤ s.byteIdx ∧ t = execState ((s.arrive now rest).commitAccess 1)
        (execState ((s.arrive now rest).commitAccess 0) (s.arrive now rest).deselect)))

/-- u is the state in which the commit of the i-th staged byte runs. -/
def State.CommitsAt (s u : State) (now : Nat) (rest : List Delivery) (i : Nat) : Prop :=
  (i = 0 ∧ u = (s.arrive now rest).deselect) ∨
  (i = 1 ∧ u = execState ((s.arrive now rest).commitAccess 0) (s.arrive now rest).deselect)

/-- What a commit changed, the last access that changed it left so. -/
theorem State.Commits.access_of_change {α : Type} (f : State → α) {s t : State} (h : s.Commits t)
    (hFrame : ∀ now rest, f (s.arrive now rest).deselect = f s) (hChanged : f t ≠ f s) :
    ∃ now rest i u, s.inbox = { now := now, event := .csRise } :: rest ∧ s.isWrite = true ∧ i < 2 ∧ i + 1 < s.byteIdx ∧
      s.CommitsAt u now rest i ∧ f (execState ((s.arrive now rest).commitAccess i) u) ≠ f u ∧
      f t = f (execState ((s.arrive now rest).commitAccess i) u) := by
  obtain ⟨now, rest, hInbox, hWrite, ⟨hIdx, rfl⟩ | ⟨hIdx, rfl⟩⟩ := h
  · exact ⟨now, rest, 0, _, hInbox, hWrite, by decide, hIdx, .inl ⟨rfl, rfl⟩, by rwa [hFrame], rfl⟩
  · by_cases hSecond : f (execState ((s.arrive now rest).commitAccess 1)
        (execState ((s.arrive now rest).commitAccess 0) (s.arrive now rest).deselect)) =
        f (execState ((s.arrive now rest).commitAccess 0) (s.arrive now rest).deselect)
    · rw [hSecond] at hChanged ⊢
      exact ⟨now, rest, 0, _, hInbox, hWrite, by decide, by omega, .inl ⟨rfl, rfl⟩, by rwa [hFrame], rfl⟩
    · exact ⟨now, rest, 1, _, hInbox, hWrite, by decide, hIdx, .inr ⟨rfl, rfl⟩, hSecond, rfl⟩

/-- A step that commits nothing leaves BANK, and every register cell but INT_STATUS and the count pair; it leaves the timer,
or it is a tick at TMR_NEXT, which leaves the period. -/
theorem StepKind.commits_or_keeps {s t : State} (h : StepKind s t) :
    s.Commits t ∨ (t.bank = s.bank ∧ s.RegsSameBut t [0x2D#7, 0x2E#7, 0x2F#7] ∧
      (s.SameTimer t ∨
        (∃ d rest, s.inbox = { now := s.tmrNext, event := .tick d } :: rest ∧ t.tmrPeriod = s.tmrPeriod))) := by
  cases h with
  | wait _ => exact .inr ⟨rfl, fun _ _ => rfl, .inl ⟨rfl, rfl⟩⟩
  | fall now rest _ _ => exact .inr ⟨rfl, fun _ _ => rfl, .inl ⟨rfl, rfl⟩⟩
  | rise now rest _ _ => exact .inr ⟨rfl, fun _ _ => rfl, .inl ⟨rfl, rfl⟩⟩
  | commitOne now rest hInbox _ hWrite hIdx => exact .inl ⟨now, rest, hInbox, hWrite, .inl ⟨hIdx, rfl⟩⟩
  | commitTwo now rest hInbox _ hWrite hIdx => exact .inl ⟨now, rest, hInbox, hWrite, .inr ⟨hIdx, rfl⟩⟩
  | command now rest b _ _ =>
    rw [execState_decodeCommand]
    exact .inr ⟨rfl, fun _ _ => rfl, .inl ⟨rfl, rfl⟩⟩
  | read now rest b _ _ _ =>
    have hRegs : s.RegsSameBut (execState (decodeRead (accessWord true s.regAddr)) (s.arrive now rest))
        [0x2D#7, 0x2E#7, 0x2F#7] := by
      intro a ha
      simp only [List.mem_cons, List.not_mem_nil, or_false, not_or] at ha
      exact readAccess_regAt_other s.regAddr (s.arrive now rest) ha.1 ha.2.1 ha.2.2
    obtain ⟨_, _, _, _, e⟩ := readAccess_eq s.regAddr (s.arrive now rest)
    rw [e] at hRegs ⊢
    exact .inr ⟨rfl, hRegs, .inl ⟨rfl, rfl⟩⟩
  | staged now rest b _ _ _ _ => exact .inr ⟨rfl, fun _ _ => rfl, .inl ⟨rfl, rfl⟩⟩
  | excess now rest b _ _ _ => exact .inr ⟨rfl, fun _ _ => rfl, .inl ⟨rfl, rfl⟩⟩
  | anomaly now rest w _ =>
    obtain ⟨_, _, e⟩ := State.anomaly_eq (s.arrive now rest) w
    rw [e]
    exact .inr ⟨rfl, fun _ _ => rfl, .inl ⟨rfl, rfl⟩⟩
  | tick now rest d p hInbox _ hNow =>
    have hRegs : s.RegsSameBut ((s.arrive now rest).tick d) [0x2D#7, 0x2E#7, 0x2F#7] := by
      intro a ha
      simp only [List.mem_cons, List.not_mem_nil, or_false, not_or] at ha
      exact State.tick_regAt_other (s.arrive now rest) d ha.1 ha.2.1 ha.2.2
    obtain ⟨_, _, _, _, _, _, e⟩ := State.tick_eq (s.arrive now rest) d
    rw [e] at hRegs ⊢
    exact .inr ⟨rfl, hRegs, .inr ⟨d, rest, hNow ▸ hInbox, rfl⟩⟩
  | amp now rest w q _ => cases w <;> exact .inr ⟨rfl, fun _ _ => rfl, .inl ⟨rfl, rfl⟩⟩

/-- Settles O50: a commit alone changes BANK, and its last access that did so was to 0x76. -/
theorem bankChangedOnlyByBankSelect : Obligations.BankChangedOnlyByBankSelect := by
  intro s t hStep hChanged
  rcases (step_kind hStep).commits_or_keeps with hCommits | ⟨hSame, _⟩
  · obtain ⟨now, rest, i, u, hInbox, hWrite, hi, hIdx, _, hAccess, hLast⟩ :=
      hCommits.access_of_change State.bank (fun _ _ => rfl) hChanged
    rw [State.commitAccess, writeAccess_bank] at hAccess hLast
    obtain ⟨hAddr, _⟩ := ite_ne_right_iff.1 hAccess
    exact ⟨now, rest, i, hInbox, hWrite, hi, hIdx, hAddr, hLast.trans (if_pos hAddr)⟩
  · exact absurd hSame hChanged

/-- Settles O51: a commit alone changes such a cell, and its last access that did so stored its byte there. -/
theorem plainCellChangedOnlyByCommit : Obligations.PlainCellChangedOnlyByCommit := by
  intro s t a hStep h2D h2E h2F hChanged
  rcases (step_kind hStep).commits_or_keeps with hCommits | ⟨_, hSame, _⟩
  · obtain ⟨now, rest, i, u, hInbox, hWrite, hi, hIdx, _, hAccess, hLast⟩ :=
      hCommits.access_of_change (State.regAt · a) (fun _ _ => rfl) hChanged
    simp only [State.commitAccess, writeAccess_regAt] at hAccess hLast
    obtain ⟨hCond, _⟩ := ite_ne_right_iff.1 hAccess
    rw [if_pos hCond] at hLast
    obtain ⟨_, hAddr, h76, h30⟩ := hCond
    rw [← hAddr] at h76 h30
    exact ⟨h30, h76, now, rest, i, hInbox, hWrite, hi, hIdx, hAddr.symm, hLast⟩
  · exact absurd (hSame a (by simp [h2D, h2E, h2F])) hChanged

/-- The timer's period and next tick (R41). -/
def State.timer (s : State) : Option Nat × Nat := (s.tmrPeriod, s.tmrNext)

theorem State.timer_ne_of_not_same {s t : State} (h : ¬ s.SameTimer t) : t.timer ≠ s.timer :=
  fun e => h (Prod.ext_iff.1 e)

/-- A write access that changes the timer restarts it: bank 0, at 0x50, with a code that has a rate (R87, R106). -/
theorem writeAccess_timer {a : RegAddr} {v : Byte} {s : State}
    (h : (execState (decodeWrite (accessWord false a) v) s).timer ≠ s.timer) :
    s.bank = 0x00#8 ∧ a = 0x50#7 ∧ ∃ r, Params.rate s.par (odrCode v) = some r ∧
      (execState (decodeWrite (accessWord false a) v) s).timer = (some (10 ^ 12 / r), s.now + 10 ^ 12 / r) := by
  rcases writeAccess_cases a v s with ⟨_, e⟩ | ⟨hBank, ha, e⟩ | ⟨_, _, _, _, e⟩ | ⟨_, _, e⟩ <;> rw [e] at h ⊢
  · exact absurd rfl h
  · cases hRate : Params.rate s.par (odrCode v) with
    | none =>
      rw [State.writeOdr_none hRate] at h
      exact absurd rfl h
    | some r => exact ⟨hBank, ha, r, rfl, by rw [State.writeOdr_some hRate]; rfl⟩
  · exact absurd rfl h
  · exact absurd rfl h

/-- The state in which a byte is committed to 0x50 has the BANK, the parameters and the NOW that the event found: a byte
before it went to 0x4F. -/
theorem State.CommitsAt.of_accelConfig0 {s u : State} {now : Nat} {rest : List Delivery} {i : Nat}
    (h : s.CommitsAt u now rest i) (hAddr : s.commitAddr i = 0x50#7) : u.bank = s.bank ∧ u.par = s.par ∧ u.now = now := by
  rcases h with ⟨_, rfl⟩ | ⟨rfl, rfl⟩
  · exact ⟨rfl, rfl, rfl⟩
  · have hFirst : (s.arrive now rest).commitAddr 0 ≠ 0x76#7 := by
      intro h0
      rw [State.commitAddr_one, show s.commitAddr 0 = 0x76#7 from h0] at hAddr
      exact absurd hAddr (by decide)
    refine ⟨?bank, ?_⟩
    case bank =>
      rw [State.commitAccess, writeAccess_bank, if_neg hFirst]
      rfl
    obtain ⟨_, _, _, _, e⟩ := writeAccess_eq ((s.arrive now rest).commitAddr 0) ((s.arrive now rest).staged 1)
      (s.arrive now rest).deselect
    rw [State.commitAccess, e]
    exact ⟨rfl, rfl⟩

/-- Settles O52: apart from a tick a commit alone changes the timer, and its last access that did so was the restart. -/
theorem timerChangedOnlyByTickOrRestart : Obligations.TimerChangedOnlyByTickOrRestart := by
  intro s t hStep hChanged
  rcases (step_kind hStep).commits_or_keeps with hCommits | ⟨_, _, hSame | hTick⟩
  · obtain ⟨now, rest, i, u, hInbox, hWrite, hi, hIdx, hAt, hAccess, hLast⟩ :=
      hCommits.access_of_change State.timer (fun _ _ => rfl) (State.timer_ne_of_not_same hChanged)
    obtain ⟨hBank, hAddr, r, hRate, hTimer⟩ := writeAccess_timer hAccess
    obtain ⟨hBank', hPar, hNow⟩ := hAt.of_accelConfig0 hAddr
    obtain ⟨hPeriod, hNext⟩ := Prod.ext_iff.1 (hLast.trans hTimer)
    rw [hPar] at hRate
    rw [hNow] at hNext
    exact .inr ⟨now, rest, i, r, hInbox, hWrite, hi, hIdx, hAddr, hBank'.symm.trans hBank,
      (odrTable_getElem? _ _).trans (congrArg some hRate), hPeriod, hNext⟩
  · exact absurd hSame hChanged
  · exact .inl hTick

end Sys2Proof.Machine
end

section
/-! PROOF. The cell REG[0x30] cannot be observed (10_state.md R23): every operation commutes with setting it. -/
namespace Sys2Proof.Machine

/-- s with the cell REG[0x30] holding v. -/
def State.withDataCell (v : Byte) (s : State) : State := s.writeReg 0x30#7 v

variable (v : Byte)

/-- Every other cell reads as before. -/
theorem State.withDataCell_regAt (s : State) {a : RegAddr} (h : a ≠ 0x30#7) : (s.withDataCell v).regAt a = s.regAt a :=
  (s.writeReg_regAt 0x30#7 a v).trans (if_neg h)

/-- Writes of two cells come to the same in either order. -/
theorem State.withDataCell_writeReg (s : State) {a : RegAddr} (h : a ≠ 0x30#7) (x : Byte) :
    (s.withDataCell v).writeReg a x = (s.writeReg a x).withDataCell v := by
  have hNe : (0x30#7).toNat ≠ a.toNat := fun e => h (BitVec.eq_of_toNat_eq e.symm)
  unfold State.withDataCell State.writeReg
  rw [Vector.set_comm _ _ hNe]

theorem State.withDataCell_raiseFlag (s : State) (f : Byte) :
    (s.withDataCell v).raiseFlag f = (s.raiseFlag f).withDataCell v := by
  rw [State.raiseFlag, State.withDataCell_regAt v s (by decide), State.withDataCell_writeReg v s (by decide)]
  rfl

theorem State.withDataCell_watermarkReached (s : State) : (s.withDataCell v).watermarkReached = s.watermarkReached := by
  have hLo := s.withDataCell_regAt v (a := Config.wmLo) (by decide)
  have hHi := s.withDataCell_regAt v (a := Config.wmHi) (by decide)
  rw [State.watermarkReached, State.watermark, hLo, hHi]
  rfl

theorem State.withDataCell_updateCount (s : State) : (s.withDataCell v).updateCount = s.updateCount.withDataCell v := by
  have hPair : ((s.withDataCell v).writeReg Config.fifoCountLo (lowByte (countHalf s.recordCount))).writeReg
      Config.fifoCountHi (highByte (countHalf s.recordCount)) =
      ((s.writeReg Config.fifoCountLo (lowByte (countHalf s.recordCount))).writeReg
        Config.fifoCountHi (highByte (countHalf s.recordCount))).withDataCell v := by
    rw [State.withDataCell_writeReg v s (by decide), State.withDataCell_writeReg v _ (by decide)]
  calc (s.withDataCell v).updateCount
      = (((s.withDataCell v).writeReg Config.fifoCountLo (lowByte (countHalf s.recordCount))).writeReg
        Config.fifoCountHi (highByte (countHalf s.recordCount))).testWatermark := rfl
    _ = s.updateCount.withDataCell v := by
      rw [hPair, State.testWatermark, State.withDataCell_watermarkReached, State.withDataCell_raiseFlag,
        ← apply_ite (State.withDataCell v)]
      rfl

theorem State.withDataCell_countIn (s : State) (n : Nat) :
    (s.withDataCell v).countIn n = (s.countIn n).withDataCell v := by
  have hOverflow : (s.withDataCell v).pushOverflow n = (s.pushOverflow n).withDataCell v :=
    State.withDataCell_raiseFlag v (s.setFifo s.fifoMem s.fifoW ((s.fifoR + n) % s.par.fifoCap) s.fifoCnt) fifoFullFlag
  rw [State.countIn, hOverflow, State.countIn, apply_ite (State.withDataCell v)]
  rfl

theorem State.withDataCell_push (s : State) (buf : List Byte) :
    (s.withDataCell v).push buf = (s.push buf).withDataCell v :=
  calc (s.withDataCell v).push buf
      = (((s.copyIn buf).withDataCell v).countIn buf.length).updateCount := rfl
    _ = (s.push buf).withDataCell v := by rw [State.withDataCell_countIn, State.withDataCell_updateCount]; rfl

/-- A pop, with the byte it gives. -/
theorem State.withDataCell_pop (s : State) : (s.withDataCell v).pop = (s.pop.1, s.pop.2.withDataCell v) := by
  by_cases h : s.fifoCnt = 0
  · rw [State.pop_empty h, State.pop_empty (s := s.withDataCell v) h]
  · rw [State.pop_nonempty h, State.pop_nonempty (s := s.withDataCell v) h, ← State.withDataCell_updateCount]
    rfl

theorem State.withDataCell_rearm (s : State) : (s.withDataCell v).rearm = s.rearm.withDataCell v := by
  unfold State.rearm
  rw [show (s.withDataCell v).tmrPeriod = s.tmrPeriod from rfl]
  cases s.tmrPeriod with
  | none => rfl
  | some p => rfl

theorem State.withDataCell_tick (s : State) (d : AxisDraws) : (s.withDataCell v).tick d = (s.tick d).withDataCell v := by
  have hEnabled : (s.rearm.withDataCell v).sampleEnabled = s.rearm.sampleEnabled :=
    congrArg (BitVec.getLsbD · 1) (State.withDataCell_regAt v s.rearm (by decide))
  rw [State.tick, State.withDataCell_rearm, hEnabled, State.withDataCell_push, State.tick,
    apply_ite (State.withDataCell v)]
  rfl

theorem State.withDataCell_writeOdr (s : State) (x : Byte) :
    (s.withDataCell v).writeOdr x = (s.writeOdr x).withDataCell v := by
  cases hRate : Params.rate s.par (odrCode x) with
  | none =>
    rw [State.writeOdr_none hRate, State.writeOdr_none (s := s.withDataCell v) hRate,
      State.withDataCell_writeReg v s (by decide)]
  | some r =>
    rw [State.writeOdr_some hRate, State.writeOdr_some (s := s.withDataCell v) hRate,
      State.withDataCell_writeReg v s (by decide)]
    rfl

/-- No read access gives or tests the cell: the read of 0x30 goes to the FIFO (R83). -/
theorem readAccess_withDataCell (s : State) (a : RegAddr) :
    execState (decodeRead (accessWord true a)) (s.withDataCell v) =
      (execState (decodeRead (accessWord true a)) s).withDataCell v := by
  have gate : ∀ {k : State → Byte × State}, k (s.withDataCell v) = ((k s).1, (k s).2.withDataCell v) →
      State.respond ((s.withDataCell v).gateRead k).2 ((s.withDataCell v).gateRead k).1 =
        (State.respond (s.gateRead k).2 (s.gateRead k).1).withDataCell v := by
    intro k hk
    by_cases hBank : s.bank = 0x00#8
    · rw [State.gateRead_bank0 hBank, State.gateRead_bank0 (s := s.withDataCell v) hBank, hk]
      rfl
    · rw [State.gateRead_other hBank, State.gateRead_other (s := s.withDataCell v) hBank]
      rfl
  rcases decodeRead_cases a with ⟨_, e⟩ | ⟨_, e⟩ | ⟨_, h30, e⟩ <;> rw [e]
  · refine gate ?_
    rw [State.readToClear, State.withDataCell_regAt v s (by decide), State.withDataCell_writeReg v s (by decide)]
    rfl
  · exact gate (State.withDataCell_pop v s)
  · refine gate ?_
    rw [State.plainRead, State.withDataCell_regAt v s h30]
    rfl

/-- No write access writes the cell: the write of 0x30 is discarded (R88). -/
theorem writeAccess_withDataCell (s : State) (a : RegAddr) (x : Byte) :
    execState (decodeWrite (accessWord false a) x) (s.withDataCell v) =
      (execState (decodeWrite (accessWord false a) x) s).withDataCell v := by
  have gate : ∀ {k : State → State}, k (s.withDataCell v) = (k s).withDataCell v →
      (s.withDataCell v).gateWrite k = (s.gateWrite k).withDataCell v := by
    intro k hk
    by_cases hBank : s.bank = 0x00#8
    · rw [State.gateWrite_bank0 hBank, State.gateWrite_bank0 (s := s.withDataCell v) hBank, hk]
    · rw [State.gateWrite_other hBank, State.gateWrite_other (s := s.withDataCell v) hBank]
  rcases decodeWrite_cases a x with ⟨_, e⟩ | ⟨_, e⟩ | ⟨_, e⟩ | ⟨_, _, h30, e⟩ <;> rw [e]
  · rfl
  · exact gate (State.withDataCell_writeOdr v s x)
  · exact gate (k := id) rfl
  · exact gate (k := fun t => t.writeReg a x) (State.withDataCell_writeReg v s h30 x)

theorem commit_withDataCell (s u : State) :
    execStates s.commitAccesses (u.withDataCell v) = (execStates s.commitAccesses u).withDataCell v := by
  have hList : ∀ (l : List Nat) (u : State), execStates (l.map s.commitAccess) (u.withDataCell v) =
      (execStates (l.map s.commitAccess) u).withDataCell v := by
    intro l
    induction l with
    | nil => exact fun _ => rfl
    | cons i l ih =>
      intro u
      calc execStates ((i :: l).map s.commitAccess) (u.withDataCell v)
          = execStates (l.map s.commitAccess) (execState (s.commitAccess i) (u.withDataCell v)) := rfl
        _ = execStates (l.map s.commitAccess) ((execState (s.commitAccess i) u).withDataCell v) := by
          rw [State.commitAccess, writeAccess_withDataCell]
        _ = (execStates ((i :: l).map s.commitAccess) u).withDataCell v := ih _
  exact hList _ u

theorem State.withDataCell_respondFreeMany (k : Nat) (s : State) :
    State.respondFreeMany k (s.withDataCell v) = (State.respondFreeMany k s).withDataCell v := by
  induction k generalizing s with
  | zero => rfl
  | succ k ih => exact ih s.respondFree

theorem csRise_withDataCell (s : State) :
    csRise (s.withDataCell v) = andThen (csRise s) (fun t => .next (t.withDataCell v)) := by
  rcases csRise_cases s with ⟨h0, hWrite, h⟩ | ⟨hNone, h⟩
  · rw [h, andThen_next, ← commit_withDataCell]
    calc csRise (s.withDataCell v) = execAll s.commitAccesses (s.deselect.withDataCell v) := if_pos ⟨h0, hWrite⟩
      _ = .next (execStates s.commitAccesses (s.deselect.withDataCell v)) := execAll_eq _ _
  · rw [h]
    exact csRise_eq_deselect (s := s.withDataCell v) hNone

theorem beat_withDataCell (b : Byte) (s : State) :
    beat b (s.withDataCell v) = andThen (beat b s) (fun t => .next (t.withDataCell v)) := by
  unfold beat
  rw [show (s.withDataCell v).byteIdx = s.byteIdx from rfl, show (s.withDataCell v).isWrite = s.isWrite from rfl]
  split_ifs
  · rw [exec_eq_execState, exec_eq_execState, execState_decodeCommand, execState_decodeCommand]
    rfl
  · rw [readBeat_eq, readBeat_eq, show (s.withDataCell v).regAddr = s.regAddr from rfl, readAccess_withDataCell]
    rfl
  · rfl
  · rfl

/-- No event observes or changes the cell. -/
theorem handle_withDataCell (e : Event) (s : State) :
    handle e (s.withDataCell v) = andThen (handle e s) (fun t => .next (t.withDataCell v)) := by
  cases e with
  | csFall => rfl
  | csRise => exact csRise_withDataCell v s
  | beat b => exact beat_withDataCell v b s
  | xferAnomaly w =>
    exact congrArg Host.Outcome.next (State.withDataCell_respondFreeMany v w (s.report .badExchangeWidth))
  | tick d => exact congrArg Host.Outcome.next (State.withDataCell_tick v s d)
  | setAmp which q => cases which <;> rfl

/-- Settles O56: the duties read no register cell, so both steps refuse alike, and an admitted event commutes with setting
the cell. -/
theorem fifoDataCellUnobservable : Obligations.FifoDataCellUnobservable := by
  intro s v
  cases hInbox : s.inbox with
  | nil =>
    rw [step_nil hInbox]
    exact step_nil (s := s.withDataCell v) hInbox
  | cons d rest =>
    rw [step_cons hInbox]
    refine (step_cons (s := s.withDataCell v) hInbox).trans ?_
    cases hDuty : s.brokenDuty d with
    | none =>
      rw [deliver_unbroken hDuty, deliver_unbroken (s := s.withDataCell v) hDuty]
      exact handle_withDataCell v d.event (s.arrive d.now rest)
    | some r =>
      have hRefused : ∀ u : State, u.brokenDuty d = some r → deliver d rest u = .refused r := by
        intro u hu
        rw [deliver, hu]
      rw [hRefused s hDuty, hRefused (s.withDataCell v) hDuty]
      rfl

end Sys2Proof.Machine
end

section
/-! PROOF. Runs: each event reads the state before it, the host's events are taken in order, and a sequence that keeps the
duties never ends the run (00_scope.md R9, R16; 20_memory.md R60). -/
namespace Sys2Proof.Machine

/-- Settles O57: handling the event commutes with setting what comes after it, and leaves the count of askings. -/
theorem eventReadsOnlyTheStateBefore : Obligations.EventReadsOnlyTheStateBefore := by
  intro s t d rest rest' hInbox hStep
  have hHandle := handle_of_step hInbox hStep
  have hAsked : t.asked = s.asked := (handle_keeps_inbox hHandle).2
  have hDuties := duties_of_step hInbox hStep
  calc step { s with inbox := d :: rest' }
      = handle d.event ((s.arrive d.now rest).withInbox rest' s.asked) :=
        offers_step (s := { s with inbox := d :: rest' }) ⟨rfl, hDuties⟩
    _ = .next (t.withInbox rest' s.asked) := by rw [handle_withInbox, hHandle, andThen_next]
    _ = .next { t with inbox := rest' } := by rw [← hAsked]; rfl

/-- What the host chooses when it is asked once more than asks times from a on. -/
theorem hostEvents_flatMap_succ (a asks : Nat) :
    (List.range (asks + 1)).flatMap (fun i => Config.hostEvents (a + i)) =
      Config.hostEvents a ++ (List.range asks).flatMap (fun i => Config.hostEvents (a + 1 + i)) := by
  rw [List.range_succ_eq_map, List.flatMap_cons, List.flatMap_map]
  simp only [Nat.add_zero, Nat.succ_eq_add_one, Nat.add_comm, Nat.add_left_comm]

/-- Settles O58, by induction on the number of steps: a first step asks the host, or takes the first event. -/
theorem eventsTakenInHostOrder : Obligations.EventsTakenInHostOrder := by
  intro s t k
  induction k generalizing s with
  | zero =>
    intro hRun
    cases hRun
    exact ⟨0, [], rfl, rfl, List.append_nil _⟩
  | succ k ih =>
    intro hRun
    obtain ⟨u, hStep, hRest⟩ := (run_succ k s t).1 hRun
    obtain ⟨asks, taken, hAsked, hCount, hOrder⟩ := ih u hRest
    rcases step_inbox hStep with ⟨hNil, rfl⟩ | ⟨d, hCons, hSame⟩
    · refine ⟨asks + 1, taken, ?_, ?_, ?_⟩
      · rw [hAsked, State.askHost_asked, Nat.add_assoc, Nat.add_comm 1]
      · omega
      · rw [hNil, List.nil_append, hostEvents_flatMap_succ]
        exact hOrder
    · refine ⟨asks, d :: taken, ?_, ?_, ?_⟩
      · rw [hAsked, hSame]
      · rw [List.length_cons]; omega
      · rw [hCons, ← hSame, List.cons_append, hOrder]
        rfl

/-- One step after a run. -/
theorem run_step {n : Nat} {s t u : State} (hRun : Host.Core.run core n s = .next t) (hStep : step t = .next u) :
    Host.Core.run core (n + 1) s = .next u :=
  run_trans hRun ((run_succ 0 t u).2 ⟨u, hStep, rfl⟩)

/-- The first n events of a sequence that keeps the duties take n steps, whatever comes after them. -/
theorem run_first_events {s : State} {f : Nat → Delivery}
    (h : ∀ n t, Host.Core.run core n { s with inbox := (List.range (n + 1)).map f } = .next t → t.DutiesMet (f n))
    (n : Nat) : ∃ t : State, t.asked = s.asked ∧ ∀ l,
      Host.Core.run core n { s with inbox := (List.range n).map f ++ l } = .next { t with inbox := l } := by
  have hSnoc : ∀ n l, (List.range (n + 1)).map f ++ l = (List.range n).map f ++ f n :: l := by
    intro n l
    rw [List.range_succ, List.map_append, List.append_assoc]
    rfl
  induction n with
  | zero => exact ⟨s, rfl, fun l => rfl⟩
  | succ n ih =>
    obtain ⟨t, hAsked, hRun⟩ := ih
    have hDuties : State.DutiesMet { t with inbox := [f n] } (f n) := by
      refine h n _ ?_
      rw [← List.append_nil (List.map f _), hSnoc]
      exact hRun [f n]
    obtain ⟨u, hStep⟩ := step_of_duties (s := { t with inbox := [f n] }) rfl hDuties
    refine ⟨u, ?asked, fun l => ?run⟩
    case asked => exact (handle_keeps_inbox (handle_of_step (s := { t with inbox := [f n] }) rfl hStep)).2.trans hAsked
    case run =>
      rw [hSnoc]
      exact run_step (hRun (f n :: l)) (eventReadsOnlyTheStateBefore { t with inbox := [f n] } u (f n) [] l rfl hStep)

/-- Settles O59: the first n events, with nothing after them. -/
theorem infiniteEventSequenceNeverEndsRun : Obligations.InfiniteEventSequenceNeverEndsRun := by
  intro s f hDuties n
  obtain ⟨t, hAsked, hRun⟩ := run_first_events hDuties n
  refine ⟨{ t with inbox := [] }, ?_, rfl, hAsked⟩
  rw [← hRun [], List.append_nil]

end Sys2Proof.Machine
end
